-- ==== Sys2Proof/Word.lean ====
section
/-! DEFINITION. The words FALCON's instructions work on (`00_scope.md` rules R7, R9, R11). -/

namespace Sys2Proof

/-- A 64-bit value: a general register, `pc`, `sp`, an address (rules R7 `XLEN`, R20, R23, R27, R40). -/
abbrev Word := BitVec 64

/-- One byte of memory or one byte lane of a register (rules R9, R30). -/
abbrev Byte := BitVec 8

/-- An instruction word: bit 31 most significant, bit 0 least (rules R7 `ILEN`, R9, R60). -/
abbrev InstrWord := BitVec 32

/-- The 16-bit immediate field `imm16` (rules R7, R61). -/
abbrev Imm16 := BitVec 16

/-- The 8-bit shift immediate field `imm8` (rules R7, R61). -/
abbrev Imm8 := BitVec 8

/-- The number of a general register, `r0` to `r15` (rules R7 `NREGS`, R20). -/
abbrev Reg := Fin 16

end Sys2Proof
end

