-- ==== Sys2Proof/Syntax.lean ====
section
/-! DEFINITION. FALCON's 55 instructions, one constructor per row of `spec/opcode_table.json` (`30_encoding.md` rule R76),
in the table's order. The arguments are the fields of the row's format (rule R63) in the order they stand in the word:
`a`, `b`, `c` the register fields `A`, `B`, `C`; `imm` the immediate; `chunk` the field `SS`; `lane` the field `S`. The
suffixes `I` and `Ri` stand for the labels' `.i` and `.ri` (rule R84). -/

namespace Sys2Proof

/-- One instruction. A chunk or a lane is a number; `Instr.wellFormed` says which numbers exist. -/
inductive Instr where
  | nop
  | add (a b c : Reg)
  | addI (a b : Reg) (imm : Imm16)
  | sub (a b c : Reg)
  | subI (a b : Reg) (imm : Imm16)
  | subRi (a b : Reg) (imm : Imm16)
  | mul (a b c : Reg)
  | mulI (a b : Reg) (imm : Imm16)
  | div (a b c : Reg)
  | divI (a b : Reg) (imm : Imm16)
  | divRi (a b : Reg) (imm : Imm16)
  | sdiv (a b c : Reg)
  | sdivI (a b : Reg) (imm : Imm16)
  | sdivRi (a b : Reg) (imm : Imm16)
  | and (a b c : Reg)
  | or (a b c : Reg)
  | xor (a b c : Reg)
  | not (a : Reg)
  | nand (a b c : Reg)
  | nor (a b c : Reg)
  | xnor (a b c : Reg)
  | mod (a b c : Reg)
  | modI (a b : Reg) (imm : Imm16)
  | modRi (a b : Reg) (imm : Imm16)
  | smod (a b c : Reg)
  | smodI (a b : Reg) (imm : Imm16)
  | smodRi (a b : Reg) (imm : Imm16)
  | rsh (a b c : Reg)
  | rshI (a b : Reg) (imm : Imm8)
  | lsh (a b c : Reg)
  | lshI (a b : Reg) (imm : Imm8)
  | ror (a b : Reg)
  | rol (a b : Reg)
  | mov (a b : Reg)
  | ldi (a : Reg) (chunk : Nat) (imm : Imm16)
  | ldr (a b : Reg) (lane : Nat)
  | ldrI (a : Reg) (lane : Nat) (imm : Imm16)
  | str (a b : Reg) (lane : Nat)
  | strI (a : Reg) (lane : Nat) (imm : Imm16)
  | push (a : Reg)
  | pop (a : Reg)
  | cmp (a b : Reg)
  | cmpI (a : Reg) (imm : Imm16)
  | cmpRi (a : Reg) (imm : Imm16)
  | scmp (a b : Reg)
  | scmpI (a : Reg) (imm : Imm16)
  | scmpRi (a : Reg) (imm : Imm16)
  | b (a : Reg)
  | bI (imm : Imm16)
  | bg (a : Reg)
  | bgI (imm : Imm16)
  | be (a : Reg)
  | beI (imm : Imm16)
  | bs (a : Reg)
  | bsI (imm : Imm16)
  deriving DecidableEq, Repr

end Sys2Proof
end

