-- ==== Sys2Proof/WellFormed.lean ====
section
/-! DEFINITION. Which terms of `Instr` name an instruction that exists. Register numbers and immediates are bounded by
their types; a chunk number is 0 to 3 and a byte lane 0 to 7 (`30_encoding.md` rule R75, `90_conflicts.md` C3). -/

namespace Sys2Proof

/-- A chunk number of `ldi`: a 64-bit register has four 16-bit chunks (rule R75). -/
def chunkExists (chunk : Nat) : Bool := chunk < 4

/-- A byte lane of `ldr` and `str`: a 64-bit register has eight bytes (rule R75). -/
def laneExists (lane : Nat) : Bool := lane < 8

/-- The checks an instruction term must pass to have an encoding. -/
def Instr.wellFormed : Instr → Bool
  | .ldi _ chunk _ => chunkExists chunk
  | .ldr _ _ lane => laneExists lane
  | .ldrI _ lane _ => laneExists lane
  | .str _ _ lane => laneExists lane
  | .strI _ lane _ => laneExists lane
  | .nop | .add .. | .addI .. | .sub .. | .subI .. | .subRi .. | .mul .. | .mulI .. | .div .. | .divI .. | .divRi ..
  | .sdiv .. | .sdivI .. | .sdivRi .. | .and .. | .or .. | .xor .. | .not .. | .nand .. | .nor .. | .xnor ..
  | .mod .. | .modI .. | .modRi .. | .smod .. | .smodI .. | .smodRi .. | .rsh .. | .rshI .. | .lsh .. | .lshI ..
  | .ror .. | .rol .. | .mov .. | .push .. | .pop .. | .cmp .. | .cmpI .. | .cmpRi .. | .scmp .. | .scmpI ..
  | .scmpRi .. | .b .. | .bI .. | .bg .. | .bgI .. | .be .. | .beI .. | .bs .. | .bsI .. => true

end Sys2Proof
end

