-- ==== Sys2Proof/Decode.lean ====
section
/-! DEFINITION. The decoder and the encoder, written from `30_encoding.md` (fields: rule R61; formats: rule R63; decoding:
rule R62; the opcode map: rule R76; reserved words: rules R78, R79), and the pseudo-instructions of
`48_pseudoinstructions.md`. -/

namespace Sys2Proof

/-! ### Formats -/

/-- The eleven formats of rule R63. -/
inductive Format where
  | z | rrr | rri | rr | rri8 | r | ri | i | ldi | mr | mi
  deriving DecidableEq, Repr

/-- The bits a format fixes: the opcode and the must-be-zero bits (rule R63, column "mask of fixed bits"). -/
def Format.mask : Format → InstrWord
  | .z => 0xFFFFFFFF#32
  | .rrr => 0xFF000FFF#32
  | .rri => 0xFF000000#32
  | .rr => 0xFF00FFFF#32
  | .rri8 => 0xFF00FF00#32
  | .r => 0xFF0FFFFF#32
  | .ri => 0xFF0F0000#32
  | .i => 0xFFFF0000#32
  | .ldi => 0xFF0C0000#32
  | .mr => 0xFF00FFF8#32
  | .mi => 0xFF080000#32

/-- The format of an instruction's row (rules R63, R76). -/
def Instr.format : Instr → Format
  | .nop => .z
  | .add .. | .sub .. | .mul .. | .div .. | .sdiv .. | .and .. | .or .. | .xor .. | .nand .. | .nor ..
  | .xnor .. | .mod .. | .smod .. | .rsh .. | .lsh .. => .rrr
  | .addI .. | .subI .. | .subRi .. | .mulI .. | .divI .. | .divRi .. | .sdivI .. | .sdivRi .. | .modI ..
  | .modRi .. | .smodI .. | .smodRi .. => .rri
  | .not .. | .push .. | .pop .. | .b .. | .bg .. | .be .. | .bs .. => .r
  | .rshI .. | .lshI .. => .rri8
  | .ror .. | .rol .. | .mov .. | .cmp .. | .scmp .. => .rr
  | .ldi .. => .ldi
  | .ldr .. | .str .. => .mr
  | .ldrI .. | .strI .. => .mi
  | .cmpI .. | .cmpRi .. | .scmpI .. | .scmpRi .. => .ri
  | .bI .. | .bgI .. | .beI .. | .bsI .. => .i

/-! ### Fields (rule R61) -/

/-- The opcode, `w[31:24]`. -/
def fieldOpcode (w : InstrWord) : BitVec 8 := w.extractLsb' 24 8

/-- The register field `A`, `w[23:20]`. -/
def fieldA (w : InstrWord) : Reg := (w.extractLsb' 20 4).toFin

/-- The register field `B`, `w[19:16]`. -/
def fieldB (w : InstrWord) : Reg := (w.extractLsb' 16 4).toFin

/-- The register field `C`, `w[15:12]`. -/
def fieldC (w : InstrWord) : Reg := (w.extractLsb' 12 4).toFin

/-- The immediate `imm16`, `w[15:0]`. -/
def fieldImm16 (w : InstrWord) : Imm16 := w.extractLsb' 0 16

/-- The immediate `imm8`, `w[7:0]`. -/
def fieldImm8 (w : InstrWord) : Imm8 := w.extractLsb' 0 8

/-- The chunk number `SS` of format LDI, `w[17:16]`. -/
def fieldChunk (w : InstrWord) : Nat := (w.extractLsb' 16 2).toNat

/-- The lane `S` of format MR, `w[2:0]`. -/
def fieldLaneMR (w : InstrWord) : Nat := (w.extractLsb' 0 3).toNat

/-- The lane `S` of format MI, `w[18:16]`. -/
def fieldLaneMI (w : InstrWord) : Nat := (w.extractLsb' 16 3).toNat

/-- A field's value at its place in a word: bit 0 of the field at bit `lo`, every other bit 0 (rule R61). -/
def putField {n : Nat} (v : BitVec n) (lo : Nat) : InstrWord := v.setWidth 32 <<< lo

/-! ### The decoder (rule R62) -/

/-- Why bytes name no instruction. The first two make the machine raise `IllegalInstruction`; the third cannot come from a
fetch, which reads four bytes. All are safe. -/
inductive DecodeReject where
  /-- Opcode 0x23 or 0x38 to 0xFF (rules R78, R152). -/
  | reservedOpcode
  /-- A defined opcode with a 1 in a must-be-zero bit (rules R79, R80). -/
  | mustBeZero
  /-- Fewer than the four bytes every instruction has (rule R60). -/
  | tooFewBytes
  deriving DecidableEq, Repr

/-- "`w & mask(F) = p << 24`" (rules R62, R63): the instruction, unless a must-be-zero bit of its format is 1. -/
def checkFixed (f : Format) (w : InstrWord) (i : Instr) : Except DecodeReject Instr :=
  if w &&& f.mask = putField (fieldOpcode w) 24 then .ok i else .error .mustBeZero

/-- Rule R62: the opcode selects the row of rule R76, the format's fixed bits are checked, the fields are extracted. Total
on every word; every opcode without a row is reserved (rule R78). -/
def decode (w : InstrWord) : Except DecodeReject Instr :=
  match (fieldOpcode w).toNat with
  | 0x00 => checkFixed .z w (.nop)
  | 0x01 => checkFixed .rrr w (.add (fieldA w) (fieldB w) (fieldC w))
  | 0x02 => checkFixed .rri w (.addI (fieldA w) (fieldB w) (fieldImm16 w))
  | 0x03 => checkFixed .rrr w (.sub (fieldA w) (fieldB w) (fieldC w))
  | 0x04 => checkFixed .rri w (.subI (fieldA w) (fieldB w) (fieldImm16 w))
  | 0x05 => checkFixed .rri w (.subRi (fieldA w) (fieldB w) (fieldImm16 w))
  | 0x06 => checkFixed .rrr w (.mul (fieldA w) (fieldB w) (fieldC w))
  | 0x07 => checkFixed .rri w (.mulI (fieldA w) (fieldB w) (fieldImm16 w))
  | 0x08 => checkFixed .rrr w (.div (fieldA w) (fieldB w) (fieldC w))
  | 0x09 => checkFixed .rri w (.divI (fieldA w) (fieldB w) (fieldImm16 w))
  | 0x0A => checkFixed .rri w (.divRi (fieldA w) (fieldB w) (fieldImm16 w))
  | 0x0B => checkFixed .rrr w (.sdiv (fieldA w) (fieldB w) (fieldC w))
  | 0x0C => checkFixed .rri w (.sdivI (fieldA w) (fieldB w) (fieldImm16 w))
  | 0x0D => checkFixed .rri w (.sdivRi (fieldA w) (fieldB w) (fieldImm16 w))
  | 0x0E => checkFixed .rrr w (.and (fieldA w) (fieldB w) (fieldC w))
  | 0x0F => checkFixed .rrr w (.or (fieldA w) (fieldB w) (fieldC w))
  | 0x10 => checkFixed .rrr w (.xor (fieldA w) (fieldB w) (fieldC w))
  | 0x11 => checkFixed .r w (.not (fieldA w))
  | 0x12 => checkFixed .rrr w (.nand (fieldA w) (fieldB w) (fieldC w))
  | 0x13 => checkFixed .rrr w (.nor (fieldA w) (fieldB w) (fieldC w))
  | 0x14 => checkFixed .rrr w (.xnor (fieldA w) (fieldB w) (fieldC w))
  | 0x15 => checkFixed .rrr w (.mod (fieldA w) (fieldB w) (fieldC w))
  | 0x16 => checkFixed .rri w (.modI (fieldA w) (fieldB w) (fieldImm16 w))
  | 0x17 => checkFixed .rri w (.modRi (fieldA w) (fieldB w) (fieldImm16 w))
  | 0x18 => checkFixed .rrr w (.smod (fieldA w) (fieldB w) (fieldC w))
  | 0x19 => checkFixed .rri w (.smodI (fieldA w) (fieldB w) (fieldImm16 w))
  | 0x1A => checkFixed .rri w (.smodRi (fieldA w) (fieldB w) (fieldImm16 w))
  | 0x1B => checkFixed .rrr w (.rsh (fieldA w) (fieldB w) (fieldC w))
  | 0x1C => checkFixed .rri8 w (.rshI (fieldA w) (fieldB w) (fieldImm8 w))
  | 0x1D => checkFixed .rrr w (.lsh (fieldA w) (fieldB w) (fieldC w))
  | 0x1E => checkFixed .rri8 w (.lshI (fieldA w) (fieldB w) (fieldImm8 w))
  | 0x1F => checkFixed .rr w (.ror (fieldA w) (fieldB w))
  | 0x20 => checkFixed .rr w (.rol (fieldA w) (fieldB w))
  | 0x21 => checkFixed .rr w (.mov (fieldA w) (fieldB w))
  | 0x22 => checkFixed .ldi w (.ldi (fieldA w) (fieldChunk w) (fieldImm16 w))
  | 0x24 => checkFixed .mr w (.ldr (fieldA w) (fieldB w) (fieldLaneMR w))
  | 0x25 => checkFixed .mi w (.ldrI (fieldA w) (fieldLaneMI w) (fieldImm16 w))
  | 0x26 => checkFixed .mr w (.str (fieldA w) (fieldB w) (fieldLaneMR w))
  | 0x27 => checkFixed .mi w (.strI (fieldA w) (fieldLaneMI w) (fieldImm16 w))
  | 0x28 => checkFixed .r w (.push (fieldA w))
  | 0x29 => checkFixed .r w (.pop (fieldA w))
  | 0x2A => checkFixed .rr w (.cmp (fieldA w) (fieldB w))
  | 0x2B => checkFixed .ri w (.cmpI (fieldA w) (fieldImm16 w))
  | 0x2C => checkFixed .ri w (.cmpRi (fieldA w) (fieldImm16 w))
  | 0x2D => checkFixed .rr w (.scmp (fieldA w) (fieldB w))
  | 0x2E => checkFixed .ri w (.scmpI (fieldA w) (fieldImm16 w))
  | 0x2F => checkFixed .ri w (.scmpRi (fieldA w) (fieldImm16 w))
  | 0x30 => checkFixed .r w (.b (fieldA w))
  | 0x31 => checkFixed .i w (.bI (fieldImm16 w))
  | 0x32 => checkFixed .r w (.bg (fieldA w))
  | 0x33 => checkFixed .i w (.bgI (fieldImm16 w))
  | 0x34 => checkFixed .r w (.be (fieldA w))
  | 0x35 => checkFixed .i w (.beI (fieldImm16 w))
  | 0x36 => checkFixed .r w (.bs (fieldA w))
  | 0x37 => checkFixed .i w (.bsI (fieldImm16 w))
  | _ => .error .reservedOpcode

/-! ### Words and bytes (`20_memory.md` rule R45) -/

/-- A word from its four bytes, the byte at the lowest address first and least significant (rule R45). -/
def wordOfBytes (b0 b1 b2 b3 : Byte) : InstrWord := b3 ++ b2 ++ b1 ++ b0

/-- Byte `k` of a word, bits `[8k+7:8k]` (rule R45). -/
def byteOfWord (w : InstrWord) (k : Nat) : Byte := w.extractLsb' (8 * k) 8

/-- A word's four bytes in the order they lie in memory (rule R45). -/
def bytesOfWord (w : InstrWord) : List Byte := [byteOfWord w 0, byteOfWord w 1, byteOfWord w 2, byteOfWord w 3]

/-- The instruction at the head of a run of bytes, and the bytes after it; every instruction is four bytes (rule R60). -/
def decodeBytes : List Byte → Except DecodeReject (Instr × List Byte)
  | b0 :: b1 :: b2 :: b3 :: rest =>
    match decode (wordOfBytes b0 b1 b2 b3) with
    | .ok i => .ok (i, rest)
    | .error e => .error e
  | _ => .error .tooFewBytes

/-- The instruction the decoder reads from the word whose low `nbits` bits are those of `w` and whose other bits are 0,
laid out in memory as the hardware stores it. -/
def decodeTableWord (nbits w : Nat) : Option Instr :=
  match decodeBytes (bytesOfWord (BitVec.ofNat 32 (w % 2 ^ nbits))) with
  | .ok (i, _) => some i
  | .error _ => none

/-! ### The encoder (rules R63, R76) -/

/-- A register number as the four bits of its field. -/
def regBits (r : Reg) : BitVec 4 := BitVec.ofFin (w := 4) r

/-- Format `Z`. -/
def packZ (op : BitVec 8) : InstrWord := putField op 24

/-- Format `RRR`. -/
def packRrr (op : BitVec 8) (a b c : Reg) : InstrWord :=
  putField op 24 ||| putField (regBits a) 20 ||| putField (regBits b) 16 ||| putField (regBits c) 12

/-- Format `RRI`. -/
def packRri (op : BitVec 8) (a b : Reg) (imm : Imm16) : InstrWord :=
  putField op 24 ||| putField (regBits a) 20 ||| putField (regBits b) 16 ||| putField imm 0

/-- Format `RR`. -/
def packRr (op : BitVec 8) (a b : Reg) : InstrWord :=
  putField op 24 ||| putField (regBits a) 20 ||| putField (regBits b) 16

/-- Format `RRI8`. -/
def packRri8 (op : BitVec 8) (a b : Reg) (imm : Imm8) : InstrWord :=
  putField op 24 ||| putField (regBits a) 20 ||| putField (regBits b) 16 ||| putField imm 0

/-- Format `R`. -/
def packR (op : BitVec 8) (a : Reg) : InstrWord := putField op 24 ||| putField (regBits a) 20

/-- Format `RI`. -/
def packRi (op : BitVec 8) (a : Reg) (imm : Imm16) : InstrWord :=
  putField op 24 ||| putField (regBits a) 20 ||| putField imm 0

/-- Format `I`. -/
def packI (op : BitVec 8) (imm : Imm16) : InstrWord := putField op 24 ||| putField imm 0

/-- Format `LDI`. -/
def packLdi (op : BitVec 8) (a : Reg) (chunk : Nat) (imm : Imm16) : InstrWord :=
  putField op 24 ||| putField (regBits a) 20 ||| putField (BitVec.ofNat 2 chunk) 16 ||| putField imm 0

/-- Format `MR`. -/
def packMr (op : BitVec 8) (a b : Reg) (lane : Nat) : InstrWord :=
  putField op 24 ||| putField (regBits a) 20 ||| putField (regBits b) 16 ||| putField (BitVec.ofNat 3 lane) 0

/-- Format `MI`. -/
def packMi (op : BitVec 8) (a : Reg) (lane : Nat) (imm : Imm16) : InstrWord :=
  putField op 24 ||| putField (regBits a) 20 ||| putField (BitVec.ofNat 3 lane) 16 ||| putField imm 0

/-- The word of an instruction: its row's opcode and its fields in the row's format (rule R76). -/
def encode : Instr → InstrWord
  | .nop => packZ 0x00#8
  | .add a b c => packRrr 0x01#8 a b c
  | .addI a b imm => packRri 0x02#8 a b imm
  | .sub a b c => packRrr 0x03#8 a b c
  | .subI a b imm => packRri 0x04#8 a b imm
  | .subRi a b imm => packRri 0x05#8 a b imm
  | .mul a b c => packRrr 0x06#8 a b c
  | .mulI a b imm => packRri 0x07#8 a b imm
  | .div a b c => packRrr 0x08#8 a b c
  | .divI a b imm => packRri 0x09#8 a b imm
  | .divRi a b imm => packRri 0x0A#8 a b imm
  | .sdiv a b c => packRrr 0x0B#8 a b c
  | .sdivI a b imm => packRri 0x0C#8 a b imm
  | .sdivRi a b imm => packRri 0x0D#8 a b imm
  | .and a b c => packRrr 0x0E#8 a b c
  | .or a b c => packRrr 0x0F#8 a b c
  | .xor a b c => packRrr 0x10#8 a b c
  | .not a => packR 0x11#8 a
  | .nand a b c => packRrr 0x12#8 a b c
  | .nor a b c => packRrr 0x13#8 a b c
  | .xnor a b c => packRrr 0x14#8 a b c
  | .mod a b c => packRrr 0x15#8 a b c
  | .modI a b imm => packRri 0x16#8 a b imm
  | .modRi a b imm => packRri 0x17#8 a b imm
  | .smod a b c => packRrr 0x18#8 a b c
  | .smodI a b imm => packRri 0x19#8 a b imm
  | .smodRi a b imm => packRri 0x1A#8 a b imm
  | .rsh a b c => packRrr 0x1B#8 a b c
  | .rshI a b imm => packRri8 0x1C#8 a b imm
  | .lsh a b c => packRrr 0x1D#8 a b c
  | .lshI a b imm => packRri8 0x1E#8 a b imm
  | .ror a b => packRr 0x1F#8 a b
  | .rol a b => packRr 0x20#8 a b
  | .mov a b => packRr 0x21#8 a b
  | .ldi a chunk imm => packLdi 0x22#8 a chunk imm
  | .ldr a b lane => packMr 0x24#8 a b lane
  | .ldrI a lane imm => packMi 0x25#8 a lane imm
  | .str a b lane => packMr 0x26#8 a b lane
  | .strI a lane imm => packMi 0x27#8 a lane imm
  | .push a => packR 0x28#8 a
  | .pop a => packR 0x29#8 a
  | .cmp a b => packRr 0x2A#8 a b
  | .cmpI a imm => packRi 0x2B#8 a imm
  | .cmpRi a imm => packRi 0x2C#8 a imm
  | .scmp a b => packRr 0x2D#8 a b
  | .scmpI a imm => packRi 0x2E#8 a imm
  | .scmpRi a imm => packRi 0x2F#8 a imm
  | .b a => packR 0x30#8 a
  | .bI imm => packI 0x31#8 imm
  | .bg a => packR 0x32#8 a
  | .bgI imm => packI 0x33#8 imm
  | .be a => packR 0x34#8 a
  | .beI imm => packI 0x35#8 imm
  | .bs a => packR 0x36#8 a
  | .bsI imm => packI 0x37#8 imm

/-- An instruction's four bytes in memory order (rule R45). -/
def encodeBytes (i : Instr) : List Byte := bytesOfWord (encode i)

/-! ### Pseudo-instructions and macros (`48_pseudoinstructions.md`) -/

/-- `inc rA` stands for `add rA, rA, 1` (rule R195). -/
def pseudoInc (a : Reg) : Instr := .addI a a 1

/-- `dec rA` stands for `sub rA, rA, 1` (rule R196). -/
def pseudoDec (a : Reg) : Instr := .subI a a 1

/-- The macro `bge t`: `bg t`, then `be t-4` (rule R197). DESIGN CHOICE for `t` = -32768 to -32765, which fits the immediate while
`t-4` does not and of which rule R197 says nothing: `t-4` is taken modulo 2^16, here and in the two macros below, so the second
branch has a positive offset (notes/assumptions/14.md). -/
def macroBge (t : Imm16) : List Instr := [.bgI t, .beI (t - 4)]

/-- The macro `bne t`: `bg t`, then `bs t-4` (rule R197). DESIGN CHOICE: for `t` = -32768 to -32765, `t-4` is taken modulo
2^16 (notes/assumptions/14.md). -/
def macroBne (t : Imm16) : List Instr := [.bgI t, .bsI (t - 4)]

/-- The macro `bse t`: `bs t`, then `be t-4` (rule R197). DESIGN CHOICE: for `t` = -32768 to -32765, `t-4` is taken modulo
2^16 (notes/assumptions/14.md). -/
def macroBse (t : Imm16) : List Instr := [.bsI t, .beI (t - 4)]

end Sys2Proof
end

