-- ==== Sys2Proof/Machine/Operands.lean ====
section
/-! DEFINITION. What the instructions compute from their operands: the extension of immediates, byte lanes and chunks, the
arithmetic laws, the bitwise operations, shifts and rotates. Notation: `00_scope.md` rules R11, R12; `bv64(n)` is
`BitVec.ofNat 64 n` or `BitVec.ofInt 64 n`, `u(v)` is `v.toNat`, `s(v)` is `v.toInt`. -/

namespace Sys2Proof.Machine

/-! ### Immediates, lanes and chunks -/

/-- `zext_64(imm16)` (`30_encoding.md` rules R71, R73, R74). -/
def zext16 (imm : Imm16) : Word := imm.setWidth 64

/-- `sext_64(imm16)` (rule R72). -/
def sext16 (imm : Imm16) : Word := imm.signExtend 64

/-- `zext_64(imm8)` as the number of positions of a shift, 0 to 255 (rule R73). -/
def shiftAmount8 (imm : Imm8) : Nat := imm.toNat

/-- Byte lane `k` of a register, bits `[8k+7:8k]` (rule R75). -/
def byteLane (v : Word) (k : Nat) : Byte := v.extractLsb' (8 * k) 8

/-- A byte in lane `k`, the other seven lanes 0: `zext_64(b) << (8 * k)` (`45_load_store_stack.md` rule R160). -/
def placeByte (b : Byte) (k : Nat) : Word := b.setWidth 64 <<< (8 * k)

/-- An immediate in chunk `k`, the other three chunks 0: `zext_64(imm16) << (16 * k)` (`44_move_ldi.md` rule R151). -/
def placeChunk (imm : Imm16) (k : Nat) : Word := imm.setWidth 64 <<< (16 * k)

/-! ### Arithmetic (`40_nop_arithmetic.md` rules R115 to R119, `42_modulo.md` rules R136, R137) -/

/-- The sum modulo 2^64 (rule R115). -/
def addWords (p q : Word) : Word := p + q

/-- The difference modulo 2^64 (rule R115). -/
def subWords (p q : Word) : Word := p - q

/-- The low 64 bits of the product (rule R115). -/
def mulWords (p q : Word) : Word := p * q

/-- `bv64(floor(u(n) / u(d)))` (rule R116); the caller has excluded `d = 0`. -/
def divUnsigned (n d : Word) : Word := BitVec.ofNat 64 (n.toNat / d.toNat)

/-- `bv64(trunc(s(n) / s(d)))` (rules R117, R119); the caller has excluded `d = 0`. -/
def divSigned (n d : Word) : Word := BitVec.ofInt 64 (n.toInt.tdiv d.toInt)

/-- `bv64(u(n) mod u(d))` (rule R136); the caller has excluded `d = 0`. -/
def modUnsigned (n d : Word) : Word := BitVec.ofNat 64 (n.toNat % d.toNat)

/-- `bv64(s(n) - s(d) * trunc(s(n) / s(d)))` (rule R137); the caller has excluded `d = 0`. -/
def modSigned (n d : Word) : Word := BitVec.ofInt 64 (n.toInt - d.toInt * n.toInt.tdiv d.toInt)

/-! ### Bitwise operations (`41_logic.md`) -/

/-- Rule R120. -/
def andWords (p q : Word) : Word := p &&& q

/-- Rule R121. -/
def orWords (p q : Word) : Word := p ||| q

/-- Rule R122. -/
def xorWords (p q : Word) : Word := p ^^^ q

/-- Rule R123. -/
def notWord (p : Word) : Word := ~~~p

/-- Rule R124. -/
def nandWords (p q : Word) : Word := ~~~(p &&& q)

/-- Rule R125. -/
def norWords (p q : Word) : Word := ~~~(p ||| q)

/-- Rule R126. -/
def xnorWords (p q : Word) : Word := ~~~(p ^^^ q)

/-! ### Shifts and rotates (`43_shift_rotate.md`) -/

/-- Logical right shift by any number of positions; 64 or more give 0 (rule R140). The bound is tested first so that an
amount near 2^64 is never shifted by. -/
def shiftRight (v : Word) (n : Nat) : Word := if n < 64 then v >>> n else 0

/-- Left shift by any number of positions; 64 or more give 0 (rule R140). -/
def shiftLeft (v : Word) (n : Nat) : Word := if n < 64 then v <<< n else 0

/-- `{ a[0], a[63:1] }` (rule R145). -/
def rotateRightOne (v : Word) : Word := v.extractLsb' 0 1 ++ v.extractLsb' 1 63

/-- `{ a[62:0], a[63] }` (rule R146). -/
def rotateLeftOne (v : Word) : Word := v.extractLsb' 0 63 ++ v.extractLsb' 63 1

end Sys2Proof.Machine
end

