-- ==== Sys2Proof/Config.lean ====
section
/-! DEFINITION. What surrounds the core and what the spec leaves open: the platform parameters of `00_scope.md` rule R8,
the values the model names for a reset that the spec leaves unspecified, and the one free value. -/

namespace Sys2Proof.Machine

/-- A run of `size` byte addresses from `base` on that holds memory: one piece of `MEM_POPULATED` (rule R40). -/
structure Region where
  base : Nat
  size : Nat
  deriving DecidableEq, Repr

/-- The platform parameters a step reads (rule R8). No step writes them: see notes/assumptions/4.md. -/
structure Platform where
  /-- `MEM_POPULATED`: the byte addresses that hold memory (rules R8, R40). -/
  populated : List Region
  /-- `END_PC`: the address at which a run ends normally, where the platform designates one (rule R235). -/
  endPc : Option Word
  deriving DecidableEq, Repr

/-- The FREE VALUE a populated byte holds that neither the memory image nor a store has given: `70_reset_and_hazards.md`
rule R231 calls it unspecified, `10_state.md` rule R33 lets it be any value. It has no body: nothing can be proved of it
but that the same address gives the same byte (reading is idempotent, `20_memory.md` rule R48). DESIGN CHOICE, safe:
notes/assumptions/5.md. -/
opaque Config.unwrittenByte : Word → Byte

/-- What every general register holds after `State.reset`. DESIGN CHOICE, unsafe (rule R33: unspecified, "it must not pick
zero"): notes/assumptions/1.md. -/
def Config.resetReg : Word := 1

/-- What each of the three flags holds after `State.reset`. DESIGN CHOICE, unsafe (rule R33: unspecified):
notes/assumptions/2.md. -/
def Config.resetFlag : Bool := true

/-- `RESET_PC`, open with the spec's default 0 (rules R8, R33, R230): notes/assumptions/3.md. -/
def Config.resetPc : Word := 0

/-- `RESET_SP`, open with no default (rules R8, R33, R230). DESIGN CHOICE, unsafe: the value of the spec's own example
platform (`95_test_vectors.md` section 3): notes/assumptions/3.md. -/
def Config.resetSp : Word := 0x8000

/-- The platform of `State.reset`. DESIGN CHOICE, unsafe: the 64 KiB of the spec's own example platform
(`95_test_vectors.md` sections 2 and 3), no `END_PC` designated: notes/assumptions/4.md. -/
def Config.resetPlatform : Platform := { populated := [{ base := 0, size := 0x10000 }], endPc := none }

end Sys2Proof.Machine
end

