-- ==== Sys2Proof/Machine/State.lean ====
section
/-! DEFINITION. The architectural state of `10_state.md` rule R32, the faults of `60_exceptions.md` rule R201 and the
machine after reset (`10_state.md` rule R33, `70_reset_and_hazards.md` rule R230). -/

namespace Sys2Proof.Machine

/-- The four faults (rule R201). A fault is recorded in `State.status`, which every later step reports as its outcome: a
faulted machine takes no further step (rules R207, R209). All four are safe: the machine stops. -/
inductive Fault where
  /-- Raised by the fetch of any step whose `pc` is not a multiple of 4 (rule R47); holds that `pc`. Safe. -/
  | misalignedFetch (pc : Word)
  /-- Raised by the fetch, by `ldr`, `ldr.i`, `str`, `str.i`, `push`, `pop` that touch an unpopulated byte (rule R42);
  holds the first such address in the order of access. Safe. -/
  | accessFault (addr : Word)
  /-- Raised by the decoding of a reserved word (rules R78, R79); holds the word. Safe. -/
  | illegalInstruction (w : InstrWord)
  /-- Raised by the twelve division and modulo instructions when the divisor is zero (rule R118). Safe. -/
  | divideByZero
  deriving DecidableEq, Repr

/-- Why a step has no next state although nothing went wrong in it. -/
inductive Refusal where
  /-- An instruction with no meaning in the model yet. No arm of `exec` answers it. Safe. -/
  | notModelled (mnemonic : String)
  /-- Answered by `step` when `pc` equals the platform's `END_PC` at the start of a step: "the run has ended; no step"
  (rules R234, R235). Safe: notes/assumptions/7.md. -/
  | runEnded
  deriving DecidableEq, Repr

/-- `Running` or `Faulted(kind, info)` (rules R32, R207). -/
inductive Status where
  | running
  | faulted (f : Fault)
  deriving DecidableEq, Repr

/-- The bytes that the image or a store has given, as (address, byte) pairs with strictly rising addresses. An address
not listed holds no value of the list's; `State.readByte` says what reading it gives. -/
abbrev Memory := List Host.Cell

/-- The canonical form of memory: addresses strictly rising, each a 64-bit address (rule R40). An unlisted address holds no
byte, so no entry can equal what an unlisted address holds. -/
abbrev Memory.wf (m : Memory) : Prop :=
  m.Pairwise (fun c d => c.1 < d.1) ∧ ∀ c ∈ m, c.1 < 2 ^ 64

/-- The machine's state: the tuple of rule R32 and the platform parameters it is run under. -/
structure State where
  /-- `x[0]` to `x[15]` (rules R20, R21). -/
  regs : Vector Word 16
  /-- The instruction pointer (rules R23, R24). -/
  pc : Word
  /-- The greater flag `G` (rule R25). -/
  greater : Bool
  /-- The equal flag `E` (rule R25). -/
  equal : Bool
  /-- The smaller flag `S_` (rule R25). -/
  smaller : Bool
  /-- The stack pointer (rule R27). -/
  sp : Word
  /-- Memory (rules R30, R40). -/
  mem : Memory
  /-- Running or faulted (rules R32, R207). -/
  status : Status
  /-- The model's own field: the platform parameters (rule R8), which no step writes. -/
  platform : Platform
  deriving DecidableEq, Repr

/-- Reset under any platform, with every value rule R33 leaves unspecified as an argument: the reading "any value (a draw
the claim quantifies over)" of rules R33, R230, R231. -/
def State.resetWith (platform : Platform) (resetPc resetSp : Word) (image : Memory) (regs : Vector Word 16)
    (greater equal smaller : Bool) : State :=
  { regs := regs, pc := resetPc, greater := greater, equal := equal, smaller := smaller, sp := resetSp, mem := image,
    status := .running, platform := platform }

/-- The machine right after reset, under the model's own platform, with no image and with the values the log names for
what the spec leaves unspecified (notes/assumptions/1.md to 4.md). -/
def State.reset : State :=
  State.resetWith Config.resetPlatform Config.resetPc Config.resetSp [] (Vector.replicate 16 Config.resetReg)
    Config.resetFlag Config.resetFlag Config.resetFlag

end Sys2Proof.Machine
end

