-- ==== Sys2Proof/Machine/Ops.lean ====
section
/-! DEFINITION. The named operations over registers, `pc`, `sp` and memory, raising a fault, and the shapes an instruction's
effect takes. Every meaning is built from these. -/

namespace Sys2Proof.Machine

/-- What executing an instruction or taking a step answers. -/
abbrev Result := Host.Outcome State Fault Refusal

/-- `PC_STEP`: the sequential advance of `pc`, in bytes (`10_state.md` rule R24). -/
def pcStep : Word := 4

/-- `STACK_SLOT`: the bytes `push` and `pop` move (`45_load_store_stack.md` rules R164, R165). -/
def stackSlot : Word := 8

/-! ### Registers, `pc`, `sp` -/

/-- `x[r]` (rule R12). -/
def State.reg (s : State) (r : Reg) : Word := s.regs[r.val]

/-- `x[r] <- v`; no register is hard-wired (rules R12, R21). -/
def State.setReg (s : State) (r : Reg) (v : Word) : State := { s with regs := s.regs.set r.val v }

/-- `pc <- pc + off`, modulo 2^64 (rules R24, R180). -/
def State.offsetPc (s : State) (off : Word) : State := { s with pc := s.pc + off }

/-- `sp <- v` (rules R12, R27). -/
def State.setSp (s : State) (v : Word) : State := { s with sp := v }

/-- Memory replaced as a whole by the operations below. -/
def State.setMem (s : State) (m : Memory) : State := { s with mem := m }

/-- The end of every instruction but a taken branch: `pc <- pc + 4` (rules R24, R100). -/
def State.advance (s : State) : State := s.offsetPc pcStep

/-! ### Raising a fault (`60_exceptions.md` rule R207)

The spec's whole exception entry: `status` becomes `Faulted(F, info)` and every register, flag, `sp`, memory and `pc` keep the
values they had before the step. There is no handler and no return (rules R208, R209). -/

/-- The state after `raise f`. -/
def State.faultedWith (s : State) (f : Fault) : State := { s with status := .faulted f }

/-- `raise f`: the step ends at once with no write but that of `status`. -/
def State.raise (s : State) (f : Fault) : Result := .next (s.faultedWith f)

/-! ### Populated addresses (`20_memory.md` rules R40, R42) -/

/-- The region holds the byte at `a`. -/
def Region.holds (r : Region) (a : Word) : Bool := r.base ≤ a.toNat && a.toNat < r.base + r.size

/-- `a` is in `MEM_POPULATED`. -/
def Platform.isPopulated (p : Platform) (a : Word) : Bool := p.populated.any (fun r => Region.holds r a)

/-- The first of the `n` addresses `a`, `a + 1`, … (modulo 2^64), in the order of access, that is not populated. -/
def Platform.firstHole (p : Platform) (a : Word) : Nat → Option Word
  | 0 => none
  | n + 1 =>
    match Platform.firstHole p a n with
    | some h => some h
    | none => if Platform.isPopulated p (a + BitVec.ofNat 64 n) then none else some (a + BitVec.ofNat 64 n)

/-! ### Memory as a list of cells -/

/-- The byte listed at an address. -/
def Memory.read : Memory → Nat → Option Byte
  | [], _ => none
  | (k, v) :: rest, a => if k = a then some v else Memory.read rest a

/-- The list with the byte at `a` set to `v`, addresses kept strictly rising. -/
def Memory.write : Memory → Nat → Byte → Memory
  | [], a, v => [(a, v)]
  | (k, w) :: rest, a, v =>
    if a < k then (a, v) :: (k, w) :: rest
    else if a = k then (a, v) :: rest
    else (k, w) :: Memory.write rest a v

/-- Bytes 0 to `n - 1` of `v`, byte `k` (bits `[8k+7:8k]`) to address `a + k` modulo 2^64, in the order of rising `k`
(rules R44, R45). -/
def Memory.storeBytes (m : Memory) (a v : Word) : Nat → Memory
  | 0 => m
  | n + 1 => Memory.write (Memory.storeBytes m a v n) (a + BitVec.ofNat 64 n).toNat (byteLane v n)

/-- Instruction words laid out little-endian in ascending address order from `a` on (`70_reset_and_hazards.md` rule R231). -/
def Memory.storeProgram (m : Memory) (a : Word) : List InstrWord → Memory
  | [] => m
  | w :: rest => Memory.storeProgram (Memory.storeBytes m a (w.setWidth 64) 4) (a + 4) rest

/-! ### Memory access (rules R42 to R45) -/

/-- `mem[a]` for a populated address: what the image or the last store gave, else the free value (rules R48, R51, R231). -/
def State.readByte (s : State) (a : Word) : Byte := (Memory.read s.mem a.toNat).getD (Config.unwrittenByte a)

/-- The `n` bytes at `a`, `a + 1`, … as one value, the byte at `a` least significant (rules R43, R45). -/
def State.loadBytes (s : State) (a : Word) : Nat → Word
  | 0 => 0
  | n + 1 => State.loadBytes s a n ||| placeByte (State.readByte s (a + BitVec.ofNat 64 n)) n

/-- `MemRead(a, n)` (rule R43), the `8n`-bit result zero-extended to 64 bits. -/
def State.memRead (s : State) (a : Word) (n : Nat) : Except Fault Word :=
  match s.platform.firstHole a n with
  | some h => .error (.accessFault h)
  | none => .ok (s.loadBytes a n)

/-- `MemWrite(a, n, v)` (rule R44): the state with the `n` low bytes of `v` stored, or the fault and no write. -/
def State.memWrite (s : State) (a : Word) (n : Nat) (v : Word) : Except Fault State :=
  match s.platform.firstHole a n with
  | some h => .error (.accessFault h)
  | none => .ok (s.setMem (s.mem.storeBytes a v n))

/-! ### Shapes of an instruction's effect

In each, every operand has been read from the state before the instruction (`40_nop_arithmetic.md` rule R100). -/

/-- `x[a] <- v`, then the next instruction (rule R100). -/
def State.writeResult (s : State) (a : Reg) (v : Word) : Result := .next (s.setReg a v).advance

/-- A division or modulo by `d`: `DivideByZero` when `d` is zero, else `x[a] <- v` (rule R118). -/
def State.writeQuotient (s : State) (a : Reg) (d v : Word) : Result :=
  if d = 0 then s.raise .divideByZero else s.writeResult a v

/-- The byte at `addr` into lane `lane` of register `a`, the other lanes 0 (rule R160). -/
def State.loadLane (s : State) (a : Reg) (addr : Word) (lane : Nat) : Result :=
  match s.memRead addr 1 with
  | .error f => s.raise f
  | .ok v => s.writeResult a (placeByte (byteLane v 0) lane)

/-- Byte lane `lane` of register `a` to the byte at `addr` (rule R162). -/
def State.storeLane (s : State) (a : Reg) (addr : Word) (lane : Nat) : Result :=
  match s.memWrite addr 1 ((byteLane (s.reg a) lane).setWidth 64) with
  | .error f => s.raise f
  | .ok t => .next t.advance

/-- Write at `sp`, then increase `sp` (rule R164). -/
def State.pushWord (s : State) (v : Word) : Result :=
  match s.memWrite s.sp 8 v with
  | .error f => s.raise f
  | .ok t => .next (t.setSp (s.sp + stackSlot)).advance

/-- Decrease `sp`, then read there into register `a` (rule R165). -/
def State.popWord (s : State) (a : Reg) : Result :=
  match s.memRead (s.sp - stackSlot) 8 with
  | .error f => s.raise f
  | .ok v => .next ((s.setReg a v).setSp (s.sp - stackSlot)).advance

/-- A branch: `pc <- pc + off` from the branch's own address when taken, else the next instruction (`47_branch.md` rule
R180). The target is not checked (rule R191). -/
def State.branch (s : State) (taken : Bool) (off : Word) : Result :=
  .next (if taken then s.offsetPc off else s.advance)

end Sys2Proof.Machine
end

