-- ==== Sys2Proof/Machine/Arithmetic.lean ====
section
/-! DEFINITION. `nop` and integer arithmetic, opcodes 0x00 to 0x0D (`40_nop_arithmetic.md`). -/

namespace Sys2Proof.Machine

/-- `nop`, opcode 0x00 (rule R101): only `pc` advances. -/
def execNop (s : State) : Result := .next s.advance

/-- `add`, opcode 0x01 (rule R102). -/
def execAdd (a b c : Reg) (s : State) : Result := s.writeResult a (addWords (s.reg b) (s.reg c))

/-- `add.i`, opcode 0x02 (rule R103). -/
def execAddI (a b : Reg) (imm : Imm16) (s : State) : Result := s.writeResult a (addWords (s.reg b) (zext16 imm))

/-- `sub`, opcode 0x03 (rule R104). -/
def execSub (a b c : Reg) (s : State) : Result := s.writeResult a (subWords (s.reg b) (s.reg c))

/-- `sub.i`, opcode 0x04 (rule R105). -/
def execSubI (a b : Reg) (imm : Imm16) (s : State) : Result := s.writeResult a (subWords (s.reg b) (zext16 imm))

/-- `sub.ri`, opcode 0x05 (rule R106). -/
def execSubRi (a b : Reg) (imm : Imm16) (s : State) : Result := s.writeResult a (subWords (zext16 imm) (s.reg b))

/-- `mul`, opcode 0x06 (rule R107). -/
def execMul (a b c : Reg) (s : State) : Result := s.writeResult a (mulWords (s.reg b) (s.reg c))

/-- `mul.i`, opcode 0x07 (rule R108). -/
def execMulI (a b : Reg) (imm : Imm16) (s : State) : Result := s.writeResult a (mulWords (s.reg b) (zext16 imm))

/-- `div`, opcode 0x08 (rule R109). -/
def execDiv (a b c : Reg) (s : State) : Result :=
  s.writeQuotient a (s.reg c) (divUnsigned (s.reg b) (s.reg c))

/-- `div.i`, opcode 0x09 (rule R110). -/
def execDivI (a b : Reg) (imm : Imm16) (s : State) : Result :=
  s.writeQuotient a (zext16 imm) (divUnsigned (s.reg b) (zext16 imm))

/-- `div.ri`, opcode 0x0A (rule R111). -/
def execDivRi (a b : Reg) (imm : Imm16) (s : State) : Result :=
  s.writeQuotient a (s.reg b) (divUnsigned (zext16 imm) (s.reg b))

/-- `sdiv`, opcode 0x0B (rule R112). -/
def execSdiv (a b c : Reg) (s : State) : Result :=
  s.writeQuotient a (s.reg c) (divSigned (s.reg b) (s.reg c))

/-- `sdiv.i`, opcode 0x0C (rule R113). -/
def execSdivI (a b : Reg) (imm : Imm16) (s : State) : Result :=
  s.writeQuotient a (sext16 imm) (divSigned (s.reg b) (sext16 imm))

/-- `sdiv.ri`, opcode 0x0D (rule R114). -/
def execSdivRi (a b : Reg) (imm : Imm16) (s : State) : Result :=
  s.writeQuotient a (s.reg b) (divSigned (sext16 imm) (s.reg b))

end Sys2Proof.Machine
end

