-- ==== Sys2Proof/Machine/Flags.lean ====
section
/-! DEFINITION. The three flags and the comparison law (`46_compare.md` rule R170, `10_state.md` rules R25, R26). -/

namespace Sys2Proof.Machine

/-- The flags written together. Only the compares do this (rule R26). -/
def State.setFlags (s : State) (greater equal smaller : Bool) : State :=
  { s with greater := greater, equal := equal, smaller := smaller }

/-- `Compare(p, q)`: all three flags from the integers themselves, then the next instruction (rule R170). -/
def State.compare (s : State) (p q : Int) : Result :=
  .next (s.setFlags (decide (p > q)) (decide (p = q)) (decide (p < q))).advance

end Sys2Proof.Machine
end

