-- ==== Sys2Proof/Machine/Branch.lean ====
section
/-! DEFINITION. The branches, opcodes 0x30 to 0x37 (`47_branch.md`). -/

namespace Sys2Proof.Machine

/-- `b`, opcode 0x30 (rule R181). -/
def execB (a : Reg) (s : State) : Result := s.branch true (s.reg a)

/-- `b.i`, opcode 0x31 (rule R182). -/
def execBI (imm : Imm16) (s : State) : Result := s.branch true (sext16 imm)

/-- `bg`, opcode 0x32 (rule R183): reads `G`. -/
def execBg (a : Reg) (s : State) : Result := s.branch s.greater (s.reg a)

/-- `bg.i`, opcode 0x33 (rule R184): reads `G`. -/
def execBgI (imm : Imm16) (s : State) : Result := s.branch s.greater (sext16 imm)

/-- `be`, opcode 0x34 (rule R185): reads `E`. -/
def execBe (a : Reg) (s : State) : Result := s.branch s.equal (s.reg a)

/-- `be.i`, opcode 0x35 (rule R186): reads `E`. -/
def execBeI (imm : Imm16) (s : State) : Result := s.branch s.equal (sext16 imm)

/-- `bs`, opcode 0x36 (rule R187): reads `S_`. -/
def execBs (a : Reg) (s : State) : Result := s.branch s.smaller (s.reg a)

/-- `bs.i`, opcode 0x37 (rule R188): reads `S_`. -/
def execBsI (imm : Imm16) (s : State) : Result := s.branch s.smaller (sext16 imm)

end Sys2Proof.Machine
end

