-- ==== Sys2Proof/Machine/Compare.lean ====
section
/-! DEFINITION. The six compares, opcodes 0x2A to 0x2F (`46_compare.md`). -/

namespace Sys2Proof.Machine

/-- `cmp`, opcode 0x2A (rule R171). -/
def execCmp (a b : Reg) (s : State) : Result := s.compare (s.reg a).toNat (s.reg b).toNat

/-- `cmp.i`, opcode 0x2B (rule R172). -/
def execCmpI (a : Reg) (imm : Imm16) (s : State) : Result := s.compare (s.reg a).toNat (zext16 imm).toNat

/-- `cmp.ri`, opcode 0x2C (rule R173). -/
def execCmpRi (a : Reg) (imm : Imm16) (s : State) : Result := s.compare (zext16 imm).toNat (s.reg a).toNat

/-- `scmp`, opcode 0x2D (rule R174). -/
def execScmp (a b : Reg) (s : State) : Result := s.compare (s.reg a).toInt (s.reg b).toInt

/-- `scmp.i`, opcode 0x2E (rule R175). -/
def execScmpI (a : Reg) (imm : Imm16) (s : State) : Result := s.compare (s.reg a).toInt (sext16 imm).toInt

/-- `scmp.ri`, opcode 0x2F (rule R176). -/
def execScmpRi (a : Reg) (imm : Imm16) (s : State) : Result := s.compare (sext16 imm).toInt (s.reg a).toInt

end Sys2Proof.Machine
end

