-- ==== Sys2Proof/Machine/LoadStore.lean ====
section
/-! DEFINITION. Loads, stores and the stack, opcodes 0x24 to 0x29 (`45_load_store_stack.md`; addressing modes: rule R166). -/

namespace Sys2Proof.Machine

/-- `ldr`, opcode 0x24 (rule R160): the address is the whole of register `b`. -/
def execLdr (a b : Reg) (lane : Nat) (s : State) : Result := s.loadLane a (s.reg b) lane

/-- `ldr.i`, opcode 0x25 (rule R161): the address is `zext_64(imm16)`. -/
def execLdrI (a : Reg) (lane : Nat) (imm : Imm16) (s : State) : Result := s.loadLane a (zext16 imm) lane

/-- `str`, opcode 0x26 (rule R162): data register `a`, address register `b`. -/
def execStr (a b : Reg) (lane : Nat) (s : State) : Result := s.storeLane a (s.reg b) lane

/-- `str.i`, opcode 0x27 (rule R163): the address is `zext_64(imm16)`. -/
def execStrI (a : Reg) (lane : Nat) (imm : Imm16) (s : State) : Result := s.storeLane a (zext16 imm) lane

/-- `push`, opcode 0x28 (rule R164). -/
def execPush (a : Reg) (s : State) : Result := s.pushWord (s.reg a)

/-- `pop`, opcode 0x29 (rule R165). -/
def execPop (a : Reg) (s : State) : Result := s.popWord a

end Sys2Proof.Machine
end

