-- ==== Sys2Proof/Machine/Logic.lean ====
section
/-! DEFINITION. Bitwise logic, opcodes 0x0E to 0x14 (`41_logic.md`). -/

namespace Sys2Proof.Machine

/-- `and`, opcode 0x0E (rule R120). -/
def execAnd (a b c : Reg) (s : State) : Result := s.writeResult a (andWords (s.reg b) (s.reg c))

/-- `or`, opcode 0x0F (rule R121). -/
def execOr (a b c : Reg) (s : State) : Result := s.writeResult a (orWords (s.reg b) (s.reg c))

/-- `xor`, opcode 0x10 (rule R122). -/
def execXor (a b c : Reg) (s : State) : Result := s.writeResult a (xorWords (s.reg b) (s.reg c))

/-- `not`, opcode 0x11, in place on `a` (rule R123, `90_conflicts.md` C1). -/
def execNot (a : Reg) (s : State) : Result := s.writeResult a (notWord (s.reg a))

/-- `nand`, opcode 0x12 (rule R124). -/
def execNand (a b c : Reg) (s : State) : Result := s.writeResult a (nandWords (s.reg b) (s.reg c))

/-- `nor`, opcode 0x13 (rule R125). -/
def execNor (a b c : Reg) (s : State) : Result := s.writeResult a (norWords (s.reg b) (s.reg c))

/-- `xnor`, opcode 0x14 (rule R126). -/
def execXnor (a b c : Reg) (s : State) : Result := s.writeResult a (xnorWords (s.reg b) (s.reg c))

end Sys2Proof.Machine
end

