-- ==== Sys2Proof/Machine/Modulo.lean ====
section
/-! DEFINITION. Modulo, opcodes 0x15 to 0x1A (`42_modulo.md`). -/

namespace Sys2Proof.Machine

/-- `mod`, opcode 0x15 (rule R130). -/
def execMod (a b c : Reg) (s : State) : Result :=
  s.writeQuotient a (s.reg c) (modUnsigned (s.reg b) (s.reg c))

/-- `mod.i`, opcode 0x16 (rule R131). -/
def execModI (a b : Reg) (imm : Imm16) (s : State) : Result :=
  s.writeQuotient a (zext16 imm) (modUnsigned (s.reg b) (zext16 imm))

/-- `mod.ri`, opcode 0x17 (rule R132). -/
def execModRi (a b : Reg) (imm : Imm16) (s : State) : Result :=
  s.writeQuotient a (s.reg b) (modUnsigned (zext16 imm) (s.reg b))

/-- `smod`, opcode 0x18 (rule R133). -/
def execSmod (a b c : Reg) (s : State) : Result :=
  s.writeQuotient a (s.reg c) (modSigned (s.reg b) (s.reg c))

/-- `smod.i`, opcode 0x19 (rule R134). -/
def execSmodI (a b : Reg) (imm : Imm16) (s : State) : Result :=
  s.writeQuotient a (sext16 imm) (modSigned (s.reg b) (sext16 imm))

/-- `smod.ri`, opcode 0x1A (rule R135). -/
def execSmodRi (a b : Reg) (imm : Imm16) (s : State) : Result :=
  s.writeQuotient a (s.reg b) (modSigned (sext16 imm) (s.reg b))

end Sys2Proof.Machine
end

