-- ==== Sys2Proof/Machine/Move.lean ====
section
/-! DEFINITION. `mov` and `ldi`, opcodes 0x21 and 0x22 (`44_move_ldi.md`). -/

namespace Sys2Proof.Machine

/-- `mov`, opcode 0x21 (rule R150). -/
def execMov (a b : Reg) (s : State) : Result := s.writeResult a (s.reg b)

/-- `ldi`, opcode 0x22 (rule R151): the chunks not loaded become 0. -/
def execLdi (a : Reg) (chunk : Nat) (imm : Imm16) (s : State) : Result := s.writeResult a (placeChunk imm chunk)

end Sys2Proof.Machine
end

