-- ==== Sys2Proof/Machine/Shift.lean ====
section
/-! DEFINITION. Shifts and rotates, opcodes 0x1B to 0x20, all in place on register `a`; the field `B` is ignored
(`43_shift_rotate.md` rule R147, `90_conflicts.md` C2), so the meanings take
it and do not use it. -/

namespace Sys2Proof.Machine

/-- `rsh`, opcode 0x1B (rule R141): by the whole unsigned value of register `c`. -/
def execRsh (a _b c : Reg) (s : State) : Result := s.writeResult a (shiftRight (s.reg a) (s.reg c).toNat)

/-- `rsh.i`, opcode 0x1C (rule R142). -/
def execRshI (a _b : Reg) (imm : Imm8) (s : State) : Result := s.writeResult a (shiftRight (s.reg a) (shiftAmount8 imm))

/-- `lsh`, opcode 0x1D (rule R143): by the whole unsigned value of register `c`. -/
def execLsh (a _b c : Reg) (s : State) : Result := s.writeResult a (shiftLeft (s.reg a) (s.reg c).toNat)

/-- `lsh.i`, opcode 0x1E (rule R144). -/
def execLshI (a _b : Reg) (imm : Imm8) (s : State) : Result := s.writeResult a (shiftLeft (s.reg a) (shiftAmount8 imm))

/-- `ror`, opcode 0x1F (rule R145). -/
def execRor (a _b : Reg) (s : State) : Result := s.writeResult a (rotateRightOne (s.reg a))

/-- `rol`, opcode 0x20 (rule R146). -/
def execRol (a _b : Reg) (s : State) : Result := s.writeResult a (rotateLeftOne (s.reg a))

end Sys2Proof.Machine
end

