-- ==== Sys2Proof/Machine/Dispatch.lean ====
section
/-! DEFINITION. The meaning of every instruction: one arm per constructor, each one call of the instruction's own
definition in the file of its family. -/

namespace Sys2Proof.Machine

def exec (i : Instr) (s : State) : Host.Outcome State Fault Refusal :=
  match i with
  -- Arithmetic
  | .nop => Sys2Proof.Machine.execNop s
  | .add a b c => Sys2Proof.Machine.execAdd a b c s
  | .addI a b imm => Sys2Proof.Machine.execAddI a b imm s
  | .sub a b c => Sys2Proof.Machine.execSub a b c s
  | .subI a b imm => Sys2Proof.Machine.execSubI a b imm s
  | .subRi a b imm => Sys2Proof.Machine.execSubRi a b imm s
  | .mul a b c => Sys2Proof.Machine.execMul a b c s
  | .mulI a b imm => Sys2Proof.Machine.execMulI a b imm s
  | .div a b c => Sys2Proof.Machine.execDiv a b c s
  | .divI a b imm => Sys2Proof.Machine.execDivI a b imm s
  | .divRi a b imm => Sys2Proof.Machine.execDivRi a b imm s
  | .sdiv a b c => Sys2Proof.Machine.execSdiv a b c s
  | .sdivI a b imm => Sys2Proof.Machine.execSdivI a b imm s
  | .sdivRi a b imm => Sys2Proof.Machine.execSdivRi a b imm s
  -- Logic
  | .and a b c => Sys2Proof.Machine.execAnd a b c s
  | .or a b c => Sys2Proof.Machine.execOr a b c s
  | .xor a b c => Sys2Proof.Machine.execXor a b c s
  | .not a => Sys2Proof.Machine.execNot a s
  | .nand a b c => Sys2Proof.Machine.execNand a b c s
  | .nor a b c => Sys2Proof.Machine.execNor a b c s
  | .xnor a b c => Sys2Proof.Machine.execXnor a b c s
  -- Modulo
  | .mod a b c => Sys2Proof.Machine.execMod a b c s
  | .modI a b imm => Sys2Proof.Machine.execModI a b imm s
  | .modRi a b imm => Sys2Proof.Machine.execModRi a b imm s
  | .smod a b c => Sys2Proof.Machine.execSmod a b c s
  | .smodI a b imm => Sys2Proof.Machine.execSmodI a b imm s
  | .smodRi a b imm => Sys2Proof.Machine.execSmodRi a b imm s
  -- Shift
  | .rsh a b c => Sys2Proof.Machine.execRsh a b c s
  | .rshI a b imm => Sys2Proof.Machine.execRshI a b imm s
  | .lsh a b c => Sys2Proof.Machine.execLsh a b c s
  | .lshI a b imm => Sys2Proof.Machine.execLshI a b imm s
  | .ror a b => Sys2Proof.Machine.execRor a b s
  | .rol a b => Sys2Proof.Machine.execRol a b s
  -- Move
  | .mov a b => Sys2Proof.Machine.execMov a b s
  | .ldi a chunk imm => Sys2Proof.Machine.execLdi a chunk imm s
  -- LoadStore
  | .ldr a b lane => Sys2Proof.Machine.execLdr a b lane s
  | .ldrI a lane imm => Sys2Proof.Machine.execLdrI a lane imm s
  | .str a b lane => Sys2Proof.Machine.execStr a b lane s
  | .strI a lane imm => Sys2Proof.Machine.execStrI a lane imm s
  | .push a => Sys2Proof.Machine.execPush a s
  | .pop a => Sys2Proof.Machine.execPop a s
  -- Compare
  | .cmp a b => Sys2Proof.Machine.execCmp a b s
  | .cmpI a imm => Sys2Proof.Machine.execCmpI a imm s
  | .cmpRi a imm => Sys2Proof.Machine.execCmpRi a imm s
  | .scmp a b => Sys2Proof.Machine.execScmp a b s
  | .scmpI a imm => Sys2Proof.Machine.execScmpI a imm s
  | .scmpRi a imm => Sys2Proof.Machine.execScmpRi a imm s
  -- Branch
  | .b a => Sys2Proof.Machine.execB a s
  | .bI imm => Sys2Proof.Machine.execBI imm s
  | .bg a => Sys2Proof.Machine.execBg a s
  | .bgI imm => Sys2Proof.Machine.execBgI imm s
  | .be a => Sys2Proof.Machine.execBe a s
  | .beI imm => Sys2Proof.Machine.execBeI imm s
  | .bs a => Sys2Proof.Machine.execBs a s
  | .bsI imm => Sys2Proof.Machine.execBsI imm s

end Sys2Proof.Machine
end

