-- ==== Sys2Proof/Machine/Fetch.lean ====
section
/-! DEFINITION. Fetching and decoding the instruction at `pc` (`20_memory.md` rule R56, `30_encoding.md` rule R62). -/

namespace Sys2Proof.Machine

/-- `Fetch(pc)`: the alignment of `pc` is checked before memory is read (rules R47, R56, R205). -/
def fetch (s : State) : Except Fault InstrWord :=
  if s.pc.toNat % 4 = 0 then
    match s.memRead s.pc 4 with
    | .ok v => .ok (v.setWidth 32)
    | .error f => .error f
  else .error (.misalignedFetch s.pc)

/-- The instruction at `pc`, or the first fault of the order of rule R205. -/
def fetchDecode (s : State) : Except Fault Instr :=
  match fetch s with
  | .error f => .error f
  | .ok w =>
    match decode w with
    | .ok i => .ok i
    | .error _ => .error (.illegalInstruction w)

/-- The word stored at `a`, and what the platform must grant for it to be fetched there: four populated bytes that are not
the end address. What the platform already grants stays as it is. -/
def Platform.allowFetch (p : Platform) (a : Word) : Platform :=
  { populated := if (p.firstHole a 4).isSome then { base := a.toNat, size := 4 } :: p.populated else p.populated,
    endPc := if p.endPc = some a then none else p.endPc }

end Sys2Proof.Machine
end

