-- ==== Sys2Proof/Machine/Step.lean ====
section
/-! DEFINITION. One step of the machine (`70_reset_and_hazards.md` rule R234) and the placing of an instruction where the
next step fetches it. -/

namespace Sys2Proof.Machine

/-- One step (rule R234). A faulted machine takes no step and reports its fault (rule R207); at `END_PC` the run has ended
(rule R235); a fault of the fetch or of the decoding is raised (rules R205, R207); otherwise the instruction is executed. -/
def step (s : State) : Host.Outcome State Fault Refusal :=
  match s.status with
  | .faulted f => .fault f
  | .running =>
    if s.platform.endPc = some s.pc then .refused .runEnded
    else
      match fetchDecode s with
      | .error f => s.raise f
      | .ok i => exec i s

/-- The state whose very next step fetches and runs the instruction with the low `nbits` bits of `w`, its other bits 0: the
word lies little-endian at `pc` (rule R231), and what keeps a step from fetching there is lifted (a fault, a misaligned
`pc`, an unpopulated byte, an end address); each of these is left alone where it already allows the fetch. -/
def State.withFetchWord (s : State) (nbits w : Nat) : State :=
  let pc : Word := s.pc - BitVec.ofNat 64 (s.pc.toNat % 4)
  { s with
    pc := pc
    mem := s.mem.storeProgram pc [BitVec.ofNat 32 (w % 2 ^ nbits)]
    status := .running
    platform := s.platform.allowFetch pc }

end Sys2Proof.Machine
end

