-- ==== Sys2Proof/Safety.lean ====
section
/-! DEFINITION. The terms claims are written in: an instruction completing, what an effect leaves unchanged, the invariant
of memory, and how a run goes (`60_exceptions.md` rules R206, R207, `70_reset_and_hazards.md` rules R234, R235). -/

namespace Sys2Proof.Machine

/-! ### Completion -/

/-- Executing `i` in `s` answers a next state with the property `P`: neither a fault nor a refusal of the model. -/
def Completes (i : Instr) (s : State) (P : State → Prop) : Prop := ∃ t, exec i s = .next t ∧ P t

/-! ### What an effect leaves unchanged -/

/-- Every general register but those named in `except` holds what it held. -/
def SameRegsExcept (s t : State) (except : List Reg) : Prop := ∀ r, r ∉ except → t.reg r = s.reg r

/-- All three flags are as they were. -/
def SameFlags (s t : State) : Prop := t.greater = s.greater ∧ t.equal = s.equal ∧ t.smaller = s.smaller

/-- Every byte of memory reads as it did. -/
def SameMemory (s t : State) : Prop := ∀ x : Word, t.readByte x = s.readByte x

/-- Every byte of memory outside the `n` addresses from `a` on (modulo 2^64) reads as it did. -/
def SameMemoryOutside (s t : State) (a : Word) (n : Nat) : Prop :=
  ∀ x : Word, (∀ k < n, x ≠ a + BitVec.ofNat 64 k) → t.readByte x = s.readByte x

/-- The machine is still running (or as it was) and on the same platform. -/
def SameRunning (s t : State) : Prop := t.status = s.status ∧ t.platform = s.platform

/-- The effect of an instruction whose only results are register `a`, which becomes `v`, and the advance of `pc`
(`40_nop_arithmetic.md` rule R100). -/
def WritesOnly (s t : State) (a : Reg) (v : Word) : Prop :=
  t.reg a = v ∧ SameRegsExcept s t [a] ∧ SameFlags s t ∧ t.sp = s.sp ∧ SameMemory s t ∧ t.pc = s.pc + 4 ∧ SameRunning s t

/-- The state of a raised fault: `status` records it, and every register, flag, `sp`, byte of memory and `pc` is as it was
(rule R207). -/
def FaultsWith (s t : State) (f : Fault) : Prop :=
  t.status = .faulted f ∧ (∀ r, t.reg r = s.reg r) ∧ SameFlags s t ∧ t.sp = s.sp ∧ SameMemory s t ∧ t.pc = s.pc ∧
    t.platform = s.platform

/-- The effect of an instruction that does nothing but advance `pc` (`40_nop_arithmetic.md` rule R101). -/
def AdvancesOnly (s t : State) : Prop :=
  (∀ r, t.reg r = s.reg r) ∧ SameFlags s t ∧ t.sp = s.sp ∧ SameMemory s t ∧ t.pc = s.pc + 4 ∧ SameRunning s t

/-- The effect of a branch: `pc` becomes `target` and nothing else changes (`47_branch.md` rule R180). -/
def JumpsOnly (s t : State) (target : Word) : Prop :=
  (∀ r, t.reg r = s.reg r) ∧ SameFlags s t ∧ t.sp = s.sp ∧ SameMemory s t ∧ t.pc = target ∧ SameRunning s t

/-- The effect of a compare of `p` with `q`: the three flags, and the advance of `pc` (`46_compare.md` rule R170). -/
def ComparesOnly (s t : State) (p q : Int) : Prop :=
  (t.greater = true ↔ p > q) ∧ (t.equal = true ↔ p = q) ∧ (t.smaller = true ↔ p < q) ∧
    (∀ r, t.reg r = s.reg r) ∧ t.sp = s.sp ∧ SameMemory s t ∧ t.pc = s.pc + 4 ∧ SameRunning s t

/-- The effect of a store of the `n` low bytes of `v` at `addr`, little-endian, that leaves `newSp` in `sp` (`20_memory.md`
rules R44, R45). -/
def StoresOnly (s t : State) (addr : Word) (n : Nat) (v newSp : Word) : Prop :=
  (∀ k < n, t.readByte (addr + BitVec.ofNat 64 k) = byteLane v k) ∧ SameMemoryOutside s t addr n ∧
    (∀ r, t.reg r = s.reg r) ∧ SameFlags s t ∧ t.sp = newSp ∧ t.pc = s.pc + 4 ∧ SameRunning s t

/-- The effect of the two instructions of a branch macro (`48_pseudoinstructions.md` rule R197): after the first a taken branch
has left, otherwise the second executes. `taken` says whether the macro branches; the target counts from the first instruction. -/
def MacroBranches (macroCode : List Instr) (s : State) (taken : Bool) (off : Word) : Prop :=
  ∃ i j, macroCode = [i, j] ∧
    Completes i s (fun t => JumpsOnly s t (s.pc + off) ∧ taken = true ∨
      JumpsOnly s t (s.pc + 4) ∧ Completes j t (fun u => JumpsOnly t u (if taken then s.pc + off else s.pc + 8)))

/-! ### Signed quotient and remainder -/

/-- `q` is the quotient of `n` by `d` rounded toward zero, and -2^63 in the one case that does not fit
(`40_nop_arithmetic.md` rules R117, R119). -/
def SignedQuotient (n d : Int) (q : Word) : Prop :=
  if n = -2 ^ 63 ∧ d = -1 then q = 0x8000000000000000
  else if (n < 0 ↔ d < 0) then q.toInt = ((n.natAbs / d.natAbs : Nat) : Int)
  else q.toInt = -((n.natAbs / d.natAbs : Nat) : Int)

/-- `r` is the remainder of `n` by `d` with the sign of `n` (`42_modulo.md` rule R137). -/
def SignedRemainder (n d : Int) (r : Word) : Prop :=
  if n < 0 then r.toInt = -((n.natAbs % d.natAbs : Nat) : Int) else r.toInt = ((n.natAbs % d.natAbs : Nat) : Int)

/-! ### Populated accesses -/

/-- Each of the `n` addresses from `a` on (modulo 2^64) is in `MEM_POPULATED` (`20_memory.md` rules R42 to R44). -/
def AllPopulated (s : State) (a : Word) (n : Nat) : Prop :=
  ∀ k < n, s.platform.isPopulated (a + BitVec.ofNat 64 k) = true

/-- `h` is the first of the `n` addresses from `a` on, in the order of access, that is not populated (rule R42). -/
def FirstUnpopulated (s : State) (a : Word) (n : Nat) (h : Word) : Prop :=
  ∃ k < n, h = a + BitVec.ofNat 64 k ∧ s.platform.isPopulated h = false ∧ AllPopulated s a k

/-! ### Invariants -/

/-- Memory keeps its canonical form and lists only populated addresses (`20_memory.md` rule R40: `mem[a]` is defined
exactly for `a` in `MEM_POPULATED`). -/
def State.MemoryOk (s : State) : Prop :=
  Memory.wf s.mem ∧ ∀ c ∈ s.mem, s.platform.isPopulated (BitVec.ofNat 64 c.1) = true

/-- Exactly one of the three flags is 1 (`46_compare.md` rule R170). -/
def State.OneFlag (s : State) : Prop :=
  (s.greater = true ∧ s.equal = false ∧ s.smaller = false) ∨
  (s.greater = false ∧ s.equal = true ∧ s.smaller = false) ∨
  (s.greater = false ∧ s.equal = false ∧ s.smaller = true)

/-! ### Runs -/

/-- `k` steps take `s` to `t`, every one of them answering a next state. -/
def RunsTo (s : State) (k : Nat) (t : State) : Prop := Host.Core.run Sys2Proof.core k s = .next t

/-- The run has ended normally: the machine is running and `pc` is the designated end address (rule R235). -/
def State.EndedNormally (s : State) : Prop := s.status = .running ∧ s.platform.endPc = some s.pc

end Sys2Proof.Machine

namespace Sys2Proof

/-! ### Which instructions may write what (`10_state.md` rules R21, R23, R26, R27, `20_memory.md` rule R41) -/

/-- What an instruction that does not fault may write, beside the sequential advance of `pc`. -/
inductive Effect where
  /-- Nothing. -/
  | nothing
  /-- The general register `a`. -/
  | register (a : Reg)
  /-- The three flags. -/
  | flags
  /-- One byte of memory. -/
  | byte
  /-- Eight bytes of memory and `sp`. -/
  | push
  /-- The general register `a` and `sp`. -/
  | pop (a : Reg)
  /-- `pc`, otherwise than by the sequential advance. -/
  | pc
  deriving DecidableEq, Repr

/-- Rule R21: opcodes 0x01 to 0x22, 0x24, 0x25 and 0x29 write registers; rule R26: opcodes 0x2A to 0x2F write the flags;
rule R27: `push` and `pop` write `sp`; rule R41: `str`, `str.i` and `push` write memory; rule R23: opcodes 0x30 to 0x37 write
`pc`. -/
def Instr.effect : Instr → Effect
  | .nop => .nothing
  | .add a .. | .addI a .. | .sub a .. | .subI a .. | .subRi a .. | .mul a .. | .mulI a .. | .div a .. | .divI a ..
  | .divRi a .. | .sdiv a .. | .sdivI a .. | .sdivRi a .. | .and a .. | .or a .. | .xor a .. | .not a .. | .nand a ..
  | .nor a .. | .xnor a .. | .mod a .. | .modI a .. | .modRi a .. | .smod a .. | .smodI a .. | .smodRi a .. | .rsh a ..
  | .rshI a .. | .lsh a .. | .lshI a .. | .ror a .. | .rol a .. | .mov a .. | .ldi a .. | .ldr a .. | .ldrI a .. =>
    .register a
  | .str .. | .strI .. => .byte
  | .push .. => .push
  | .pop a => .pop a
  | .cmp .. | .cmpI .. | .cmpRi .. | .scmp .. | .scmpI .. | .scmpRi .. => .flags
  | .b .. | .bI .. | .bg .. | .bgI .. | .be .. | .beI .. | .bs .. | .bsI .. => .pc

/-- The bytes of memory an instruction stores to when it does not fault, as an address and a count: the address register's
value for `str`, the zero-extended immediate for `str.i`, `sp` for `push` (rule R41). -/
def Instr.storedBytes (s : Machine.State) : Instr → Option (Word × Nat)
  | .str _ address _ => some (s.reg address, 1)
  | .strI _ _ imm => some (Machine.zext16 imm, 1)
  | .push _ => some (s.sp, 8)
  | .nop | .add .. | .addI .. | .sub .. | .subI .. | .subRi .. | .mul .. | .mulI .. | .div .. | .divI .. | .divRi ..
  | .sdiv .. | .sdivI .. | .sdivRi .. | .and .. | .or .. | .xor .. | .not .. | .nand .. | .nor .. | .xnor ..
  | .mod .. | .modI .. | .modRi .. | .smod .. | .smodI .. | .smodRi .. | .rsh .. | .rshI .. | .lsh .. | .lshI ..
  | .ror .. | .rol .. | .mov .. | .ldi .. | .ldr .. | .ldrI .. | .pop .. | .cmp .. | .cmpI .. | .cmpRi ..
  | .scmp .. | .scmpI .. | .scmpRi .. | .b .. | .bI .. | .bg .. | .bgI .. | .be .. | .beI .. | .bs .. | .bsI .. => none

end Sys2Proof
end

