-- ==== Sys2Proof/Certificates/Slice0/Obligations.lean ====
section
/-! DEFINITION. The statements for the provers. `Completes i s P` says that executing `i` in `s` answers a next state with
the property `P`; the shapes of effect (`WritesOnly`, `StoresOnly`, …) carry the frame. A docstring that names a decision `D<n>` or a
conflict `C<n>` says that the clause rests on the spec's own choice (`92_eei_decisions.md`, `90_conflicts.md`;
notes/assumptions/9.md and 10.md), not on the hardware's source. -/

open Sys2Proof Sys2Proof.Machine

/-! ### Decoding and encoding -/

/-- `30_encoding.md` rules R61 to R63, R76: the word of every well-formed instruction decodes to it, with every operand. -/
def Obligations.DecodeOfEncodeIsTheInstruction : Prop :=
  ∀ i : Instr, i.wellFormed = true → decode (encode i) = .ok i

/-- Rule R62: a word that decodes is the word of the instruction it decodes to, which is well formed; so no bit of a word
is dropped and no two instructions share a word. -/
def Obligations.EncodeOfDecodedIsTheWord : Prop :=
  ∀ (w : InstrWord) (i : Instr), decode w = .ok i → encode i = w ∧ i.wellFormed = true

/-- Rule R78, decision D19: opcode 0x23 and opcodes 0x38 to 0xFF name no instruction. -/
def Obligations.ReservedOpcodesAreRejected : Prop :=
  ∀ w : InstrWord, (fieldOpcode w = 0x23#8 ∨ 0x38 ≤ (fieldOpcode w).toNat) → decode w = .error .reservedOpcode

/-- Rules R62, R79, decision D18: a word with the opcode of an instruction decodes, to an instruction with that opcode, exactly
when every must-be-zero bit of the opcode's format is 0; otherwise it is rejected. -/
def Obligations.DefinedOpcodesDecodeUnlessAFixedBitIsSet : Prop :=
  ∀ (w : InstrWord) (i : Instr), fieldOpcode w = fieldOpcode (encode i) →
    (w &&& i.format.mask = putField (fieldOpcode w) 24 →
      ∃ j, decode w = .ok j ∧ fieldOpcode (encode j) = fieldOpcode w ∧ j.format = i.format) ∧
    (w &&& i.format.mask ≠ putField (fieldOpcode w) 24 → decode w = .error .mustBeZero)

/-- Words written out from the source's `Encoding` lines (`95_test_vectors.md` table 1), one of each format. -/
def Obligations.WordsOfEachFormatDecode : Prop :=
  decode 0x00000000#32 = .ok .nop ∧ decode 0x01123000#32 = .ok (.add 1 2 3) ∧
  decode 0x02121234#32 = .ok (.addI 1 2 0x1234) ∧ decode 0x21120000#32 = .ok (.mov 1 2) ∧
  decode 0x1C120012#32 = .ok (.rshI 1 2 0x12) ∧ decode 0x11100000#32 = .ok (.not 1) ∧
  decode 0x2B101234#32 = .ok (.cmpI 1 0x1234) ∧ decode 0x31001234#32 = .ok (.bI 0x1234) ∧
  decode 0x22121234#32 = .ok (.ldi 1 2 0x1234) ∧ decode 0x24120005#32 = .ok (.ldr 1 2 5) ∧
  decode 0x25151234#32 = .ok (.ldrI 1 5 0x1234)

/-- `48_pseudoinstructions.md` rules R195, R196, decision D28: `inc rA` is the word 0x02AA0001 and adds 1; `dec rA` is the word
0x04AA0001 and subtracts 1; no flag is written. -/
def Obligations.IncAndDecAreAddAndSubtractOne : Prop :=
  ∀ (a : Reg) (s : State),
    encode (pseudoInc a) = packRri 0x02#8 a a 1 ∧ Completes (pseudoInc a) s (fun t => WritesOnly s t a (s.reg a + 1)) ∧
    encode (pseudoDec a) = packRri 0x04#8 a a 1 ∧ Completes (pseudoDec a) s (fun t => WritesOnly s t a (s.reg a - 1))

/-- `48_pseudoinstructions.md` rule R197, decisions D5, D22: the macros `bge`, `bne`, `bse` branch on two flags, for every offset
whose second immediate fits; of the offsets -32768 to -32765, for which it does not, the rule says nothing, and what the model's
macros then are is its own choice (notes/assumptions/14.md). -/
def Obligations.BranchMacrosBranchOnEitherFlag : Prop :=
  ∀ (off : Imm16) (s : State), sext16 (off - 4) = sext16 off - 4 →
    MacroBranches (macroBge off) s (s.greater || s.equal) (sext16 off) ∧
    MacroBranches (macroBne off) s (s.greater || s.smaller) (sext16 off) ∧
    MacroBranches (macroBse off) s (s.smaller || s.equal) (sext16 off)

/-! ### `nop` and arithmetic -/

/-- `40_nop_arithmetic.md` rule R101, decision D18: the only `nop` word is 0, a step that fetches any other word of opcode 0x00
raises `IllegalInstruction`, and `nop` advances `pc` and changes nothing else. -/
def Obligations.NopOnlyAdvancesPc : Prop :=
  decode 0#32 = .ok .nop ∧
  (∀ (w : InstrWord) (s : State), fieldOpcode w = 0#8 → w ≠ 0#32 → s.status = .running → s.platform.endPc ≠ some s.pc →
    fetch s = .ok w → ∃ t, step s = .next t ∧ FaultsWith s t (.illegalInstruction w)) ∧
  ∀ s : State, Completes .nop s (AdvancesOnly s)

/-- Rules R102 to R108, R115; wrap-around is decision D13, the zero-extended immediate decision D12: the exact sum,
difference or product modulo 2^64 into `a`, in every form, with no flag and no fault. -/
def Obligations.AddSubMulKeepTheLow64Bits : Prop :=
  ∀ (a b c : Reg) (imm : Imm16) (s : State),
    Completes (.add a b c) s (fun t => WritesOnly s t a (BitVec.ofNat 64 ((s.reg b).toNat + (s.reg c).toNat))) ∧
    Completes (.addI a b imm) s (fun t => WritesOnly s t a (BitVec.ofNat 64 ((s.reg b).toNat + imm.toNat))) ∧
    Completes (.sub a b c) s (fun t => WritesOnly s t a (BitVec.ofInt 64 ((s.reg b).toNat - (s.reg c).toNat))) ∧
    Completes (.subI a b imm) s (fun t => WritesOnly s t a (BitVec.ofInt 64 ((s.reg b).toNat - imm.toNat))) ∧
    Completes (.subRi a b imm) s (fun t => WritesOnly s t a (BitVec.ofInt 64 (imm.toNat - (s.reg b).toNat))) ∧
    Completes (.mul a b c) s (fun t => WritesOnly s t a (BitVec.ofNat 64 ((s.reg b).toNat * (s.reg c).toNat))) ∧
    Completes (.mulI a b imm) s (fun t => WritesOnly s t a (BitVec.ofNat 64 ((s.reg b).toNat * imm.toNat)))

/-- Rule R116: for a divisor other than 0 the quotient is `floor(n / d)`, and it goes with the remainder that the `mod`
instruction of the same form computes. -/
def Obligations.UnsignedDivisionIsFloor : Prop :=
  ∀ (a b c : Reg) (imm : Imm16) (s : State),
    (s.reg c ≠ 0 → Completes (.div a b c) s (fun t => ∃ q : Word, WritesOnly s t a q ∧
      q.toNat = (s.reg b).toNat / (s.reg c).toNat ∧
      Completes (.mod a b c) s (fun t' => (s.reg b).toNat = (s.reg c).toNat * q.toNat + (t'.reg a).toNat ∧
        (t'.reg a).toNat < (s.reg c).toNat))) ∧
    (imm ≠ 0 → Completes (.divI a b imm) s (fun t => ∃ q : Word, WritesOnly s t a q ∧
      q.toNat = (s.reg b).toNat / imm.toNat ∧
      Completes (.modI a b imm) s (fun t' => (s.reg b).toNat = imm.toNat * q.toNat + (t'.reg a).toNat ∧
        (t'.reg a).toNat < imm.toNat))) ∧
    (s.reg b ≠ 0 → Completes (.divRi a b imm) s (fun t => ∃ q : Word, WritesOnly s t a q ∧
      q.toNat = imm.toNat / (s.reg b).toNat ∧
      Completes (.modRi a b imm) s (fun t' => imm.toNat = (s.reg b).toNat * q.toNat + (t'.reg a).toNat ∧
        (t'.reg a).toNat < (s.reg b).toNat)))

/-- `42_modulo.md` rule R136: for a divisor other than 0 the remainder is `n - d * floor(n / d)`, below `d`; for the divisor
0 the instruction raises `DivideByZero`. -/
def Obligations.UnsignedModuloIsTheRemainder : Prop :=
  ∀ (a b c : Reg) (imm : Imm16) (s : State),
    Completes (.mod a b c) s (fun t => if s.reg c = 0 then FaultsWith s t .divideByZero else
      ∃ r : Word, WritesOnly s t a r ∧ r.toNat < (s.reg c).toNat ∧
        r.toNat = (s.reg b).toNat - (s.reg c).toNat * ((s.reg b).toNat / (s.reg c).toNat)) ∧
    Completes (.modI a b imm) s (fun t => if imm = 0 then FaultsWith s t .divideByZero else
      ∃ r : Word, WritesOnly s t a r ∧ r.toNat < imm.toNat ∧
        r.toNat = (s.reg b).toNat - imm.toNat * ((s.reg b).toNat / imm.toNat)) ∧
    Completes (.modRi a b imm) s (fun t => if s.reg b = 0 then FaultsWith s t .divideByZero else
      ∃ r : Word, WritesOnly s t a r ∧ r.toNat < (s.reg b).toNat ∧
        r.toNat = imm.toNat - (s.reg b).toNat * (imm.toNat / (s.reg b).toNat))

/-- Rules R112 to R114, R117, R119; rounding toward zero is decision D15, the overflow case decision D16: for a divisor other
than 0 the signed quotient into `a`. -/
def Obligations.SignedDivisionRoundsTowardZero : Prop :=
  ∀ (a b c : Reg) (imm : Imm16) (s : State),
    (s.reg c ≠ 0 → Completes (.sdiv a b c) s (fun t => ∃ q, WritesOnly s t a q ∧
      SignedQuotient (s.reg b).toInt (s.reg c).toInt q)) ∧
    (imm ≠ 0 → Completes (.sdivI a b imm) s (fun t => ∃ q, WritesOnly s t a q ∧
      SignedQuotient (s.reg b).toInt imm.toInt q)) ∧
    (s.reg b ≠ 0 → Completes (.sdivRi a b imm) s (fun t => ∃ q, WritesOnly s t a q ∧
      SignedQuotient imm.toInt (s.reg b).toInt q))

/-- `42_modulo.md` rules R133 to R135, R137, decisions D15, D16: for a divisor other than 0 the remainder with the sign of the
dividend into `a`. -/
def Obligations.SignedModuloTakesTheDividendsSign : Prop :=
  ∀ (a b c : Reg) (imm : Imm16) (s : State),
    (s.reg c ≠ 0 → Completes (.smod a b c) s (fun t => ∃ r, WritesOnly s t a r ∧
      SignedRemainder (s.reg b).toInt (s.reg c).toInt r)) ∧
    (imm ≠ 0 → Completes (.smodI a b imm) s (fun t => ∃ r, WritesOnly s t a r ∧
      SignedRemainder (s.reg b).toInt imm.toInt r)) ∧
    (s.reg b ≠ 0 → Completes (.smodRi a b imm) s (fun t => ∃ r, WritesOnly s t a r ∧
      SignedRemainder imm.toInt (s.reg b).toInt r))

/-- Rules R117, R137, decision D15: `sdiv` and `smod` of the same operands satisfy `n = d * q + r` modulo 2^64, in the overflow
case too. -/
def Obligations.SignedQuotientAndRemainderAgree : Prop :=
  ∀ (a b c : Reg) (s : State), s.reg c ≠ 0 →
    Completes (.sdiv a b c) s (fun t => Completes (.smod a b c) s (fun u =>
      s.reg b = s.reg c * t.reg a + u.reg a))

/-- Rule R118, decision D14: with a divisor of 0 each of the twelve division and modulo instructions raises `DivideByZero` and
writes nothing. -/
def Obligations.ZeroDivisorRaisesDivideByZero : Prop :=
  ∀ (a b c : Reg) (imm : Imm16) (s : State),
    (s.reg c = 0 → ∀ i ∈ [Instr.div a b c, .sdiv a b c, .mod a b c, .smod a b c],
      Completes i s (fun t => FaultsWith s t .divideByZero)) ∧
    (∀ i ∈ [Instr.divI a b 0, .sdivI a b 0, .modI a b 0, .smodI a b 0],
      Completes i s (fun t => FaultsWith s t .divideByZero)) ∧
    (s.reg b = 0 → ∀ i ∈ [Instr.divRi a b imm, .sdivRi a b imm, .modRi a b imm, .smodRi a b imm],
      Completes i s (fun t => FaultsWith s t .divideByZero))

/-! ### Logic -/

/-- `41_logic.md` rules R120, R121, R122, R124, R125, R126: the six two-operand operations bit by bit, their encodings, and
nothing else changed. -/
def Obligations.LogicWorksBitByBit : Prop :=
  ∀ (a b c : Reg) (s : State),
    (decode (packRrr 0x0E#8 a b c) = .ok (.and a b c) ∧ Completes (.and a b c) s (fun t => ∃ v, WritesOnly s t a v ∧
      ∀ i < 64, v.getLsbD i = ((s.reg b).getLsbD i && (s.reg c).getLsbD i))) ∧
    (decode (packRrr 0x0F#8 a b c) = .ok (.or a b c) ∧ Completes (.or a b c) s (fun t => ∃ v, WritesOnly s t a v ∧
      ∀ i < 64, v.getLsbD i = ((s.reg b).getLsbD i || (s.reg c).getLsbD i))) ∧
    (decode (packRrr 0x10#8 a b c) = .ok (.xor a b c) ∧ Completes (.xor a b c) s (fun t => ∃ v, WritesOnly s t a v ∧
      ∀ i < 64, v.getLsbD i = ((s.reg b).getLsbD i != (s.reg c).getLsbD i))) ∧
    (decode (packRrr 0x12#8 a b c) = .ok (.nand a b c) ∧ Completes (.nand a b c) s (fun t => ∃ v, WritesOnly s t a v ∧
      ∀ i < 64, v.getLsbD i = !((s.reg b).getLsbD i && (s.reg c).getLsbD i))) ∧
    (decode (packRrr 0x13#8 a b c) = .ok (.nor a b c) ∧ Completes (.nor a b c) s (fun t => ∃ v, WritesOnly s t a v ∧
      ∀ i < 64, v.getLsbD i = !((s.reg b).getLsbD i || (s.reg c).getLsbD i))) ∧
    (decode (packRrr 0x14#8 a b c) = .ok (.xnor a b c) ∧ Completes (.xnor a b c) s (fun t => ∃ v, WritesOnly s t a v ∧
      ∀ i < 64, v.getLsbD i = ((s.reg b).getLsbD i == (s.reg c).getLsbD i)))

/-- Rule R123, conflict C1: `not` has one register operand and complements it in place; its other bits must be zero. -/
def Obligations.NotComplementsInPlace : Prop :=
  (∀ (a : Reg) (s : State), decode (packR 0x11#8 a) = .ok (.not a) ∧
    Completes (.not a) s (fun t => ∃ v, WritesOnly s t a v ∧ ∀ i < 64, v.getLsbD i = !(s.reg a).getLsbD i)) ∧
  ∀ w : InstrWord, fieldOpcode w = 0x11#8 → w.extractLsb' 0 20 ≠ 0#20 → decode w = .error .mustBeZero

/-! ### Shifts and rotates -/

/-- `43_shift_rotate.md` rules R140 to R144, decision D17; field `B` ignored, rule R147, conflict C2: the right shift is
`floor(v / 2^n)`, the left shift `v * 2^n` modulo 2^64, for the whole amount `n`, whatever `b` names. -/
def Obligations.ShiftsUseTheWholeAmount : Prop :=
  ∀ (a b c : Reg) (imm : Imm8) (s : State),
    Completes (.rsh a b c) s (fun t =>
      WritesOnly s t a (BitVec.ofNat 64 ((s.reg a).toNat / 2 ^ (s.reg c).toNat))) ∧
    Completes (.rshI a b imm) s (fun t => WritesOnly s t a (BitVec.ofNat 64 ((s.reg a).toNat / 2 ^ imm.toNat))) ∧
    Completes (.lsh a b c) s (fun t =>
      WritesOnly s t a (BitVec.ofNat 64 ((s.reg a).toNat * 2 ^ (s.reg c).toNat))) ∧
    Completes (.lshI a b imm) s (fun t => WritesOnly s t a (BitVec.ofNat 64 ((s.reg a).toNat * 2 ^ imm.toNat)))

/-- Rule R140, decision D17: an amount of 64 or more gives 0 in all four shifts. -/
def Obligations.ShiftsOf64OrMoreGiveZero : Prop :=
  ∀ (a b c : Reg) (imm : Imm8) (s : State),
    (64 ≤ (s.reg c).toNat → Completes (.rsh a b c) s (fun t => WritesOnly s t a 0) ∧
      Completes (.lsh a b c) s (fun t => WritesOnly s t a 0)) ∧
    (64 ≤ imm.toNat → Completes (.rshI a b imm) s (fun t => WritesOnly s t a 0) ∧
      Completes (.lshI a b imm) s (fun t => WritesOnly s t a 0))

/-- Rules R145, R146, R147: `ror` and `rol` rotate register `a` by one place, with their encodings (bits 15:0 zero). That they work
in place on `a`, whatever the field `B` holds, is conflict C2 (notes/assumptions/10.md). -/
def Obligations.RotatesMoveEveryBitOnePlace : Prop :=
  ∀ (a b : Reg) (s : State),
    (decode (packRr 0x1F#8 a b) = .ok (.ror a b) ∧ (packRr 0x1F#8 a b).extractLsb' 0 16 = 0#16 ∧
      Completes (.ror a b) s (fun t => ∃ v, WritesOnly s t a v ∧
        v.getLsbD 63 = (s.reg a).getLsbD 0 ∧ ∀ i < 63, v.getLsbD i = (s.reg a).getLsbD (i + 1))) ∧
    (decode (packRr 0x20#8 a b) = .ok (.rol a b) ∧ (packRr 0x20#8 a b).extractLsb' 0 16 = 0#16 ∧
      Completes (.rol a b) s (fun t => ∃ v, WritesOnly s t a v ∧
        v.getLsbD 0 = (s.reg a).getLsbD 63 ∧ ∀ i < 63, v.getLsbD (i + 1) = (s.reg a).getLsbD i))

/-! ### Moves -/

/-- `44_move_ldi.md` rule R150: `mov` copies all 64 bits of `b` into `a`, with its encoding (bits 15:0 zero). -/
def Obligations.MovCopiesTheRegister : Prop :=
  ∀ (a b : Reg) (s : State),
    decode (packRr 0x21#8 a b) = .ok (.mov a b) ∧ (packRr 0x21#8 a b).extractLsb' 0 16 = 0#16 ∧
    Completes (.mov a b) s (fun t => WritesOnly s t a (s.reg b))

/-- Rule R151, decision D20: `ldi` puts its immediate in the chunk it names and clears the other three. -/
def Obligations.LdiPlacesTheImmediateInOneChunk : Prop :=
  ∀ (a : Reg) (chunk : Nat) (imm : Imm16) (s : State), chunk < 4 →
    Completes (.ldi a chunk imm) s (fun t => ∃ v, WritesOnly s t a v ∧
      ∀ k < 4, v.extractLsb' (16 * k) 16 = if k = chunk then imm else 0#16)

/-! ### Loads, stores and the stack -/

/-- `45_load_store_stack.md` rules R160, R161, R166, conflicts C4, C5, C6: a load from a populated address puts the byte in the
lane it names and clears the other seven. -/
def Obligations.LoadPlacesTheByteInOneLane : Prop :=
  ∀ (a b : Reg) (lane : Nat) (imm : Imm16) (s : State), lane < 8 →
    (s.platform.isPopulated (s.reg b) = true → Completes (.ldr a b lane) s (fun t => ∃ v, WritesOnly s t a v ∧
      ∀ k < 8, byteLane v k = if k = lane then s.readByte (s.reg b) else 0#8)) ∧
    (s.platform.isPopulated (imm.setWidth 64) = true → Completes (.ldrI a lane imm) s (fun t => ∃ v, WritesOnly s t a v ∧
      ∀ k < 8, byteLane v k = if k = lane then s.readByte (imm.setWidth 64) else 0#8))

/-- Rules R162, R163, R166, decision D21: a store to a populated address writes the lane it names to that one byte. -/
def Obligations.StoreWritesOneLaneToOneByte : Prop :=
  ∀ (a b : Reg) (lane : Nat) (imm : Imm16) (s : State), lane < 8 →
    (s.platform.isPopulated (s.reg b) = true → Completes (.str a b lane) s (fun t =>
      StoresOnly s t (s.reg b) 1 ((byteLane (s.reg a) lane).setWidth 64) s.sp)) ∧
    (s.platform.isPopulated (imm.setWidth 64) = true → Completes (.strI a lane imm) s (fun t =>
      StoresOnly s t (imm.setWidth 64) 1 ((byteLane (s.reg a) lane).setWidth 64) s.sp))

/-- Rules R42, R160 to R163, decision D9: a byte load or store at an unpopulated address raises `AccessFault` for it. -/
def Obligations.ByteAccessOutsideMemoryFaults : Prop :=
  ∀ (a b : Reg) (lane : Nat) (imm : Imm16) (s : State),
    (s.platform.isPopulated (s.reg b) = false →
      Completes (.ldr a b lane) s (fun t => FaultsWith s t (.accessFault (s.reg b))) ∧
      Completes (.str a b lane) s (fun t => FaultsWith s t (.accessFault (s.reg b)))) ∧
    (s.platform.isPopulated (imm.setWidth 64) = false →
      Completes (.ldrI a lane imm) s (fun t => FaultsWith s t (.accessFault (imm.setWidth 64))) ∧
      Completes (.strI a lane imm) s (fun t => FaultsWith s t (.accessFault (imm.setWidth 64))))

/-- Rule R164, decisions D3, D4, D7: with eight populated bytes at `sp`, `push` stores the register there little-endian and adds 8
to `sp`. -/
def Obligations.PushStoresThenRaisesSp : Prop :=
  ∀ (a : Reg) (s : State), AllPopulated s s.sp 8 →
    Completes (.push a) s (fun t => StoresOnly s t s.sp 8 (s.reg a) (s.sp + 8))

/-- Rule R165, conflict C7, decisions D3, D4, D7: with eight populated bytes below `sp`, `pop` loads them little-endian into `a` and
takes 8 from `sp`; memory stays. -/
def Obligations.PopLowersSpThenLoads : Prop :=
  ∀ (a : Reg) (s : State), AllPopulated s (s.sp - 8) 8 →
    Completes (.pop a) s (fun t => t.sp = s.sp - 8 ∧
      (∀ k < 8, byteLane (t.reg a) k = s.readByte (s.sp - 8 + BitVec.ofNat 64 k)) ∧
      SameRegsExcept s t [a] ∧ SameFlags s t ∧ SameMemory s t ∧ t.pc = s.pc + 4 ∧ SameRunning s t)

/-- Rules R42, R43, R44, R164, R165, decision D9: `push` and `pop` that touch an unpopulated byte raise `AccessFault` for the first
such byte in the order of access and change neither memory nor `sp` nor a register. -/
def Obligations.StackAccessOutsideMemoryFaults : Prop :=
  ∀ (a : Reg) (s : State) (h : Word),
    (FirstUnpopulated s s.sp 8 h → Completes (.push a) s (fun t => FaultsWith s t (.accessFault h))) ∧
    (FirstUnpopulated s (s.sp - 8) 8 h → Completes (.pop a) s (fun t => FaultsWith s t (.accessFault h)))

/-- Rule R165, conflict C7, decision D4: a `push` followed by a `pop` leaves `sp` as it was and copies the register. -/
def Obligations.PopUndoesPush : Prop :=
  ∀ (x y : Reg) (s : State), AllPopulated s s.sp 8 →
    Completes (.push x) s (fun t => Completes (.pop y) t (fun u =>
      u.sp = s.sp ∧ u.reg y = s.reg x ∧ SameRegsExcept s u [y] ∧ SameFlags s u ∧ SameMemory t u))

/-- `20_memory.md` rule R45, decision D7: a byte read by `ldr` in the slot a `push` wrote is that byte of the pushed register. -/
def Obligations.LoadReadsBackAPushedByte : Prop :=
  ∀ (x a b : Reg) (lane k : Nat) (s : State), lane < 8 → k < 8 → AllPopulated s s.sp 8 →
    s.reg b = s.sp + BitVec.ofNat 64 k →
    Completes (.push x) s (fun t => Completes (.ldr a b lane) t (fun u =>
      byteLane (u.reg a) lane = byteLane (s.reg x) k))

/-- `20_memory.md` rule R54, decision D10: a stored byte is seen by the next fetch of the word it lies in. -/
def Obligations.StoredByteIsFetched : Prop :=
  ∀ (a b : Reg) (lane k : Nat) (s : State) (w : InstrWord) (pc : Word), k < 4 →
    s.reg b = pc + BitVec.ofNat 64 k → s.platform.isPopulated (s.reg b) = true →
    Completes (.str a b lane) s (fun t =>
      fetch { t with pc := pc } = .ok w → byteOfWord w k = byteLane (s.reg a) lane)

/-! ### Compares -/

/-- `46_compare.md` rules R170 to R176, decision D5: the six compares write all three flags from the integers compared, leave
exactly one of them 1, and change nothing else but `pc`. -/
def Obligations.ComparesSetExactlyOneFlag : Prop :=
  ∀ (a b : Reg) (imm : Imm16) (s : State),
    Completes (.cmp a b) s (fun t => ComparesOnly s t (s.reg a).toNat (s.reg b).toNat ∧ t.OneFlag) ∧
    Completes (.cmpI a imm) s (fun t => ComparesOnly s t (s.reg a).toNat imm.toNat ∧ t.OneFlag) ∧
    Completes (.cmpRi a imm) s (fun t => ComparesOnly s t imm.toNat (s.reg a).toNat ∧ t.OneFlag) ∧
    Completes (.scmp a b) s (fun t => ComparesOnly s t (s.reg a).toInt (s.reg b).toInt ∧ t.OneFlag) ∧
    Completes (.scmpI a imm) s (fun t => ComparesOnly s t (s.reg a).toInt imm.toInt ∧ t.OneFlag) ∧
    Completes (.scmpRi a imm) s (fun t => ComparesOnly s t imm.toInt (s.reg a).toInt ∧ t.OneFlag)

/-! ### Branches -/

/-- `47_branch.md` rules R180 to R182, R191, decision D22: `b` moves `pc` by a whole register or by a signed immediate, from its own
address, with no check of the target. -/
def Obligations.UnconditionalBranchesOffsetPc : Prop :=
  ∀ (a : Reg) (imm : Imm16) (s : State),
    Completes (.b a) s (fun t => JumpsOnly s t (BitVec.ofInt 64 (s.pc.toNat + (s.reg a).toInt))) ∧
    Completes (.bI imm) s (fun t => JumpsOnly s t (BitVec.ofInt 64 (s.pc.toNat + imm.toInt)))

/-- Rules R180, R183 to R188, R191, decision D22: a conditional branch moves `pc` by its offset when the one flag it reads is 1 and
by 4 when it is 0, and writes no flag. -/
def Obligations.ConditionalBranchesReadOneFlag : Prop :=
  ∀ (a : Reg) (imm : Imm16) (s : State),
    Completes (.bg a) s (fun t =>
      JumpsOnly s t (BitVec.ofInt 64 (s.pc.toNat + if s.greater then (s.reg a).toInt else 4))) ∧
    Completes (.bgI imm) s (fun t => JumpsOnly s t (BitVec.ofInt 64 (s.pc.toNat + if s.greater then imm.toInt else 4))) ∧
    Completes (.be a) s (fun t =>
      JumpsOnly s t (BitVec.ofInt 64 (s.pc.toNat + if s.equal then (s.reg a).toInt else 4))) ∧
    Completes (.beI imm) s (fun t => JumpsOnly s t (BitVec.ofInt 64 (s.pc.toNat + if s.equal then imm.toInt else 4))) ∧
    Completes (.bs a) s (fun t =>
      JumpsOnly s t (BitVec.ofInt 64 (s.pc.toNat + if s.smaller then (s.reg a).toInt else 4))) ∧
    Completes (.bsI imm) s (fun t => JumpsOnly s t (BitVec.ofInt 64 (s.pc.toNat + if s.smaller then imm.toInt else 4)))

/-! ### Rules about every instruction -/

/-- `60_exceptions.md` rules R201, R207, `30_encoding.md` rule R62: in every state every instruction has an effect, be it to raise a
fault; the model neither stops on one nor refuses one. -/
def Obligations.EveryInstructionHasANextState : Prop :=
  ∀ (i : Instr) (s : State), ∃ t, exec i s = .next t

/-- `10_state.md` rule R21: an instruction changes no general register but its destination, and `nop`, `str`, `str.i`, `push`, the
compares and the branches change none. -/
def Obligations.OnlyTheDestinationRegisterChanges : Prop :=
  ∀ (i : Instr) (s t : State) (r : Reg), exec i s = .next t → i.effect ≠ .register r → i.effect ≠ .pop r →
    t.reg r = s.reg r

/-- Rule R26, decision D5: only the six compares write a flag. -/
def Obligations.OnlyComparesWriteFlags : Prop :=
  ∀ (i : Instr) (s t : State), exec i s = .next t → i.effect ≠ .flags → SameFlags s t

/-- Rule R27, decision D3: only `push` and `pop` write `sp`. -/
def Obligations.OnlyPushAndPopWriteSp : Prop :=
  ∀ (i : Instr) (s t : State), exec i s = .next t → i.effect ≠ .push → (∀ a, i.effect ≠ .pop a) → t.sp = s.sp

/-- `20_memory.md` rules R41, R44: only `str`, `str.i` and `push` change a byte of memory, and only the bytes they store to. -/
def Obligations.OnlyStoresChangeMemory : Prop :=
  ∀ (i : Instr) (s t : State) (x : Word), exec i s = .next t →
    (∀ addr n, i.storedBytes s = some (addr, n) → ∀ k < n, x ≠ addr + BitVec.ofNat 64 k) → t.readByte x = s.readByte x

/-- `10_state.md` rules R23, R24, decision D2: an instruction that is no branch ends with `pc + 4`, unless it faults, and then `pc`
stays. -/
def Obligations.PcAdvancesByFourUnlessBranchOrFault : Prop :=
  ∀ (i : Instr) (s t : State), exec i s = .next t → s.status = .running → i.effect ≠ .pc →
    t.pc = if t.status = .running then s.pc + 4 else s.pc

/-- Rule R100, R206, R207, decisions D23, D30: an instruction either completes with the machine still running, or raises a fault and
performs none of its writes. -/
def Obligations.InstructionsCompleteOrWriteNothing : Prop :=
  ∀ (i : Instr) (s t : State), exec i s = .next t → t.status = s.status ∨ ∃ f, FaultsWith s t f

/-- Rule R201: which instruction can raise which fault, and nothing else faults. -/
def Obligations.OnlyDivisionsAndMemoryInstructionsFault : Prop :=
  ∀ (i : Instr) (s t : State) (f : Fault), s.status = .running → exec i s = .next t → t.status = .faulted f →
    (f = .divideByZero ∧ ∃ a b c imm, i ∈ [Instr.div a b c, .divI a b imm, .divRi a b imm, .sdiv a b c, .sdivI a b imm,
      .sdivRi a b imm, .mod a b c, .modI a b imm, .modRi a b imm, .smod a b c, .smodI a b imm, .smodRi a b imm]) ∨
    ((∃ addr, f = .accessFault addr) ∧ ∃ a b lane imm, i ∈ [Instr.ldr a b lane, .ldrI a lane imm, .str a b lane,
      .strI a lane imm, .push a, .pop a])

/-! ### Fetch and step -/

/-- `20_memory.md` rules R43, R45, R56, decision D7: with `pc` a multiple of 4 and four populated bytes the fetch reads them, the
byte at `pc` least significant. -/
def Obligations.FetchReadsFourBytesLittleEndian : Prop :=
  ∀ s : State, s.pc.toNat % 4 = 0 → AllPopulated s s.pc 4 →
    ∃ w, fetch s = .ok w ∧ ∀ k < 4, byteOfWord w k = s.readByte (s.pc + BitVec.ofNat 64 k)

/-- `70_reset_and_hazards.md` rule R234: when the four bytes at `pc` decode to an instruction, the step of a running machine is that
instruction's execution at that state, with nothing around it. -/
def Obligations.StepExecutesTheDecodedInstruction : Prop :=
  ∀ (s : State) (i : Instr), s.status = .running → s.platform.endPc ≠ some s.pc → s.pc.toNat % 4 = 0 →
    AllPopulated s s.pc 4 →
    decode (wordOfBytes (s.readByte s.pc) (s.readByte (s.pc + 1)) (s.readByte (s.pc + 2)) (s.readByte (s.pc + 3))) = .ok i →
    step s = exec i s

/-- The model's own placing of an instruction (notes/assumptions/8.md): in every state the very next step runs the word placed. -/
def Obligations.StepRunsThePlacedWord : Prop :=
  ∀ (s : State) (w : InstrWord) (i : Instr), decode w = .ok i →
    step (s.withFetchWord 32 w.toNat) = exec i (s.withFetchWord 32 w.toNat)

/-- `60_exceptions.md` rule R205 (with R47, R42, R78, R79; decisions D8, D9, D18, D19): the faults a step raises before execution, in
their order: a misaligned `pc`, then an unpopulated byte of the word, then a word that names no instruction. -/
def Obligations.FetchFaultsComeInOrder : Prop :=
  ∀ s : State, s.status = .running → s.platform.endPc ≠ some s.pc →
    (s.pc.toNat % 4 ≠ 0 → ∃ t, step s = .next t ∧ FaultsWith s t (.misalignedFetch s.pc)) ∧
    (s.pc.toNat % 4 = 0 → ∀ h, FirstUnpopulated s s.pc 4 h →
      ∃ t, step s = .next t ∧ FaultsWith s t (.accessFault h)) ∧
    (∀ w e, fetch s = .ok w → decode w = .error e →
      ∃ t, step s = .next t ∧ FaultsWith s t (.illegalInstruction w))

/-- Rules R206, R207, decision D23: a step that ends in a faulted state has changed `status` and nothing else. -/
def Obligations.FaultsArePrecise : Prop :=
  ∀ (s t : State) (f : Fault), step s = .next t → t.status = .faulted f → FaultsWith s t f

/-- Rules R207, R209, decision D23: a faulted machine takes no further step; the model reports the recorded fault
(notes/assumptions/6.md). -/
def Obligations.FaultedMachineTakesNoStep : Prop :=
  ∀ (s : State) (f : Fault), s.status = .faulted f → step s = .fault f

/-- Rules R207, R209, decision D23, over runs: a run that has come to a faulted state is over, and every longer run answers that
fault. -/
def Obligations.NoRunGoesPastAFault : Prop :=
  ∀ (s t : State) (k : Nat) (f : Fault), RunsTo s k t → t.status = .faulted f →
    ∀ j, Host.Core.run Sys2Proof.core (k + j + 1) s = .fault f

/-- Rule R235, decision D26: a running machine whose `pc` is the end address takes no step; the model refuses it by name
(notes/assumptions/7.md). -/
def Obligations.NoStepAtTheEndAddress : Prop :=
  ∀ s : State, s.EndedNormally → step s = .refused .runEnded

/-- Rules R207, R234, R235: a running machine that is not at its end address takes a step, and a step stops only there or in a faulted
machine. -/
def Obligations.RunningMachineStepsUnlessAtItsEnd : Prop :=
  ∀ s : State, (∃ t, step s = .next t) ↔ s.status = .running ∧ s.platform.endPc ≠ some s.pc

/-! ### Reset and invariants -/

/-- `70_reset_and_hazards.md` rule R230, decision D25: reset under any platform gives `RESET_PC`, `RESET_SP`, the image and a running
machine, whatever the registers and flags hold. -/
def Obligations.ResetTakesItsValuesFromThePlatform : Prop :=
  ∀ (p : Platform) (rpc rsp : Word) (image : Memory) (regs : Vector Word 16) (g e l : Bool),
    (State.resetWith p rpc rsp image regs g e l).pc = rpc ∧ (State.resetWith p rpc rsp image regs g e l).sp = rsp ∧
    (State.resetWith p rpc rsp image regs g e l).mem = image ∧
    (State.resetWith p rpc rsp image regs g e l).status = .running ∧
    State.reset.pc = 0 ∧ State.reset.status = .running

/-- The model's memory at reset is in canonical form and lists only populated addresses (notes/assumptions/4.md, 5.md). -/
def Obligations.ResetMemoryIsOk : Prop := State.reset.MemoryOk

/-- `20_memory.md` rule R40, decision D6: memory stays in canonical form and never lists an unpopulated address, over every step from
every such state. -/
def Obligations.StepsKeepMemoryOk : Prop :=
  ∀ s t : State, s.MemoryOk → step s = .next t → t.MemoryOk

/-- `10_state.md` rule R26, `46_compare.md` rule R170, decision D5: once exactly one flag is 1, every step leaves exactly one flag 1. -/
def Obligations.StepsKeepExactlyOneFlag : Prop :=
  ∀ s t : State, s.OneFlag → step s = .next t → t.OneFlag

/-- The platform parameters of `00_scope.md` rule R8 are no state of the machine: no step changes the model's field for them
(notes/assumptions/4.md). -/
def Obligations.StepsKeepThePlatform : Prop :=
  ∀ s t : State, step s = .next t → t.platform = s.platform
end

