-- ==== Sys2Proof/Laws/Decode.lean ====
section
/-! SUPPORT. Lemmas about fields placed in and taken from an instruction word, and about the decoder's one check. -/

namespace Sys2Proof

/-- Bit `i` of a placed field. -/
theorem getLsbD_putField {n : Nat} (v : BitVec n) (lo i : Nat) :
    (putField v lo).getLsbD i = (decide (i < 32) && decide (lo ≤ i) && v.getLsbD (i - lo)) := by
  unfold putField
  rw [BitVec.getLsbD_shiftLeft, BitVec.getLsbD_setWidth]
  by_cases h : i < 32
  · have h1 : i - lo < 32 := by omega
    by_cases h2 : lo ≤ i
    · simp [h, h1, h2, Nat.not_lt.mpr h2]
    · simp [h, h2, Nat.lt_of_not_le h2]
  · simp [h]

/-- Taking a field from two words joined by or. -/
theorem extract_or (x y : InstrWord) (lo len : Nat) :
    (x ||| y).extractLsb' lo len = x.extractLsb' lo len ||| y.extractLsb' lo len := by
  apply BitVec.eq_of_getLsbD_eq
  intro i hi
  simp [hi]

/-- A placed field is found at its place. -/
theorem extract_putField_same {n : Nat} (v : BitVec n) (lo : Nat) (h : lo + n ≤ 32) :
    (putField v lo).extractLsb' lo n = v := by
  apply BitVec.eq_of_getLsbD_eq
  intro i hi
  have h1 : lo + i < 32 := by omega
  rw [BitVec.getLsbD_extractLsb', getLsbD_putField, Nat.add_sub_cancel_left]
  simp [hi, h1]

/-- A placed field shows nowhere else. -/
theorem extract_putField_other {n : Nat} (v : BitVec n) (lo at' len : Nat) (h : at' + len ≤ lo ∨ lo + n ≤ at') :
    (putField v lo).extractLsb' at' len = 0#len := by
  apply BitVec.eq_of_getLsbD_eq
  intro i hi
  rcases h with h | h
  · have h1 : ¬ lo ≤ at' + i := by omega
    simp [BitVec.getLsbD_extractLsb', getLsbD_putField, h1]
  · have h1 : v.getLsbD (at' + i - lo) = false := BitVec.getLsbD_of_ge _ _ (by omega)
    simp [BitVec.getLsbD_extractLsb', getLsbD_putField, h1]

/-- A mask that covers a field keeps it. -/
theorem putField_and_covered {n : Nat} (v : BitVec n) (lo : Nat) (m : InstrWord) (h : m.extractLsb' lo n = BitVec.allOnes n) :
    putField v lo &&& m = putField v lo := by
  apply BitVec.eq_of_getLsbD_eq
  intro i hi
  rw [BitVec.getLsbD_and, getLsbD_putField]
  by_cases h1 : lo ≤ i
  · by_cases h2 : i - lo < n
    · have h3 := congrArg (fun x => x.getLsbD (i - lo)) h
      simp only [BitVec.getLsbD_extractLsb', h2, decide_true, Bool.true_and, BitVec.getLsbD_allOnes] at h3
      rw [show lo + (i - lo) = i by omega] at h3
      simp [h3]
    · simp [BitVec.getLsbD_of_ge v (i - lo) (by omega)]
  · simp [h1]

/-- A mask that is zero on a field drops it. -/
theorem putField_and_clear {n : Nat} (v : BitVec n) (lo : Nat) (m : InstrWord) (h : m.extractLsb' lo n = 0#n) :
    putField v lo &&& m = 0#32 := by
  apply BitVec.eq_of_getLsbD_eq
  intro i hi
  rw [BitVec.getLsbD_and, getLsbD_putField]
  by_cases h1 : lo ≤ i
  · by_cases h2 : i - lo < n
    · have h3 := congrArg (fun x => x.getLsbD (i - lo)) h
      simp only [BitVec.getLsbD_extractLsb', h2, decide_true, Bool.true_and, BitVec.getLsbD_zero] at h3
      rw [show lo + (i - lo) = i by omega] at h3
      simp [h3]
    · simp [BitVec.getLsbD_of_ge v (i - lo) (by omega)]
  · simp [h1]

/-- A mask applied to two words joined by or. -/
theorem or_and_mask (x y m : InstrWord) : (x ||| y) &&& m = (x &&& m) ||| (y &&& m) := by
  apply BitVec.eq_of_getLsbD_eq
  intro i hi
  simp [Bool.and_or_distrib_right]

/-! ### The packed words -/

/-- The opcode of a packed word, whatever fields follow it. -/
theorem fieldOpcode_packed (op : BitVec 8) (rest : InstrWord) (h : rest.extractLsb' 24 8 = 0#8) :
    fieldOpcode (putField op 24 ||| rest) = op := by
  rw [fieldOpcode, extract_or, extract_putField_same _ _ (by decide), h, BitVec.or_zero]

/-- A register number survives its field. -/
@[simp] theorem toFin_regBits (r : Reg) : (regBits r).toFin = r := rfl

/-- A register field read back is the register number put there. -/
theorem regBits_toFin (v : BitVec 4) : regBits v.toFin = v := rfl

/-- The decoder's check passes exactly when the format's fixed bits are those of the opcode (rule R62). -/
theorem checkFixed_ok (f : Format) (w : InstrWord) (i j : Instr) :
    checkFixed f w i = .ok j ↔ w &&& f.mask = putField (fieldOpcode w) 24 ∧ i = j := by
  unfold checkFixed
  split <;> simp_all

/-- A word's bytes put together again are the word (rule R45). -/
theorem wordOfBytes_bytesOfWord (w : InstrWord) :
    wordOfBytes (byteOfWord w 0) (byteOfWord w 1) (byteOfWord w 2) (byteOfWord w 3) = w := by
  apply BitVec.eq_of_toNat_eq
  have h := w.isLt
  simp only [wordOfBytes, byteOfWord, BitVec.toNat_append, BitVec.extractLsb'_toNat]
  rw [← Nat.shiftLeft_add_eq_or_of_lt (Nat.mod_lt _ (by decide)), ← Nat.shiftLeft_add_eq_or_of_lt (Nat.mod_lt _ (by decide)),
    ← Nat.shiftLeft_add_eq_or_of_lt (Nat.mod_lt _ (by decide))]
  simp only [Nat.shiftRight_eq_div_pow, Nat.shiftLeft_eq]
  omega

/-- Decoding a word's bytes is decoding the word. -/
theorem decodeBytes_bytesOfWord (w : InstrWord) (i : Instr) (h : decode w = .ok i) :
    decodeBytes (bytesOfWord w) = .ok (i, []) := by
  simp [decodeBytes, bytesOfWord, wordOfBytes_bytesOfWord, h]

end Sys2Proof
end

