-- ==== Sys2Proof/Laws/State.lean ====
section
/-! SUPPORT. One lemma per field per update of `State`, so that no later proof unfolds a record update. -/

namespace Sys2Proof.Machine

/-! ### Fields after each update -/

@[simp] theorem State.setReg_pc (s : State) (r : Reg) (v : Word) : (s.setReg r v).pc = s.pc := rfl
@[simp] theorem State.setReg_greater (s : State) (r : Reg) (v : Word) : (s.setReg r v).greater = s.greater := rfl
@[simp] theorem State.setReg_equal (s : State) (r : Reg) (v : Word) : (s.setReg r v).equal = s.equal := rfl
@[simp] theorem State.setReg_smaller (s : State) (r : Reg) (v : Word) : (s.setReg r v).smaller = s.smaller := rfl
@[simp] theorem State.setReg_sp (s : State) (r : Reg) (v : Word) : (s.setReg r v).sp = s.sp := rfl
@[simp] theorem State.setReg_mem (s : State) (r : Reg) (v : Word) : (s.setReg r v).mem = s.mem := rfl
@[simp] theorem State.setReg_status (s : State) (r : Reg) (v : Word) : (s.setReg r v).status = s.status := rfl
@[simp] theorem State.setReg_platform (s : State) (r : Reg) (v : Word) : (s.setReg r v).platform = s.platform := rfl

@[simp] theorem State.offsetPc_pc (s : State) (off : Word) : (s.offsetPc off).pc = s.pc + off := rfl
@[simp] theorem State.offsetPc_greater (s : State) (off : Word) : (s.offsetPc off).greater = s.greater := rfl
@[simp] theorem State.offsetPc_equal (s : State) (off : Word) : (s.offsetPc off).equal = s.equal := rfl
@[simp] theorem State.offsetPc_smaller (s : State) (off : Word) : (s.offsetPc off).smaller = s.smaller := rfl
@[simp] theorem State.offsetPc_sp (s : State) (off : Word) : (s.offsetPc off).sp = s.sp := rfl
@[simp] theorem State.offsetPc_mem (s : State) (off : Word) : (s.offsetPc off).mem = s.mem := rfl
@[simp] theorem State.offsetPc_status (s : State) (off : Word) : (s.offsetPc off).status = s.status := rfl
@[simp] theorem State.offsetPc_platform (s : State) (off : Word) : (s.offsetPc off).platform = s.platform := rfl
@[simp] theorem State.offsetPc_reg (s : State) (off : Word) (q : Reg) : (s.offsetPc off).reg q = s.reg q := rfl
@[simp] theorem State.offsetPc_regs (s : State) (off : Word) : (s.offsetPc off).regs = s.regs := rfl

@[simp] theorem State.advance_pc (s : State) : (s.advance).pc = s.pc + 4 := rfl
@[simp] theorem State.advance_greater (s : State) : (s.advance).greater = s.greater := rfl
@[simp] theorem State.advance_equal (s : State) : (s.advance).equal = s.equal := rfl
@[simp] theorem State.advance_smaller (s : State) : (s.advance).smaller = s.smaller := rfl
@[simp] theorem State.advance_sp (s : State) : (s.advance).sp = s.sp := rfl
@[simp] theorem State.advance_mem (s : State) : (s.advance).mem = s.mem := rfl
@[simp] theorem State.advance_status (s : State) : (s.advance).status = s.status := rfl
@[simp] theorem State.advance_platform (s : State) : (s.advance).platform = s.platform := rfl
@[simp] theorem State.advance_reg (s : State) (q : Reg) : (s.advance).reg q = s.reg q := rfl
@[simp] theorem State.advance_regs (s : State) : (s.advance).regs = s.regs := rfl

@[simp] theorem State.setSp_pc (s : State) (v : Word) : (s.setSp v).pc = s.pc := rfl
@[simp] theorem State.setSp_greater (s : State) (v : Word) : (s.setSp v).greater = s.greater := rfl
@[simp] theorem State.setSp_equal (s : State) (v : Word) : (s.setSp v).equal = s.equal := rfl
@[simp] theorem State.setSp_smaller (s : State) (v : Word) : (s.setSp v).smaller = s.smaller := rfl
@[simp] theorem State.setSp_sp (s : State) (v : Word) : (s.setSp v).sp = v := rfl
@[simp] theorem State.setSp_mem (s : State) (v : Word) : (s.setSp v).mem = s.mem := rfl
@[simp] theorem State.setSp_status (s : State) (v : Word) : (s.setSp v).status = s.status := rfl
@[simp] theorem State.setSp_platform (s : State) (v : Word) : (s.setSp v).platform = s.platform := rfl
@[simp] theorem State.setSp_reg (s : State) (v : Word) (q : Reg) : (s.setSp v).reg q = s.reg q := rfl
@[simp] theorem State.setSp_regs (s : State) (v : Word) : (s.setSp v).regs = s.regs := rfl

@[simp] theorem State.setMem_pc (s : State) (m : Memory) : (s.setMem m).pc = s.pc := rfl
@[simp] theorem State.setMem_greater (s : State) (m : Memory) : (s.setMem m).greater = s.greater := rfl
@[simp] theorem State.setMem_equal (s : State) (m : Memory) : (s.setMem m).equal = s.equal := rfl
@[simp] theorem State.setMem_smaller (s : State) (m : Memory) : (s.setMem m).smaller = s.smaller := rfl
@[simp] theorem State.setMem_sp (s : State) (m : Memory) : (s.setMem m).sp = s.sp := rfl
@[simp] theorem State.setMem_mem (s : State) (m : Memory) : (s.setMem m).mem = m := rfl
@[simp] theorem State.setMem_status (s : State) (m : Memory) : (s.setMem m).status = s.status := rfl
@[simp] theorem State.setMem_platform (s : State) (m : Memory) : (s.setMem m).platform = s.platform := rfl
@[simp] theorem State.setMem_reg (s : State) (m : Memory) (q : Reg) : (s.setMem m).reg q = s.reg q := rfl
@[simp] theorem State.setMem_regs (s : State) (m : Memory) : (s.setMem m).regs = s.regs := rfl

@[simp] theorem State.faultedWith_pc (s : State) (f : Fault) : (s.faultedWith f).pc = s.pc := rfl
@[simp] theorem State.faultedWith_greater (s : State) (f : Fault) : (s.faultedWith f).greater = s.greater := rfl
@[simp] theorem State.faultedWith_equal (s : State) (f : Fault) : (s.faultedWith f).equal = s.equal := rfl
@[simp] theorem State.faultedWith_smaller (s : State) (f : Fault) : (s.faultedWith f).smaller = s.smaller := rfl
@[simp] theorem State.faultedWith_sp (s : State) (f : Fault) : (s.faultedWith f).sp = s.sp := rfl
@[simp] theorem State.faultedWith_mem (s : State) (f : Fault) : (s.faultedWith f).mem = s.mem := rfl
@[simp] theorem State.faultedWith_status (s : State) (f : Fault) : (s.faultedWith f).status = .faulted f := rfl
@[simp] theorem State.faultedWith_platform (s : State) (f : Fault) : (s.faultedWith f).platform = s.platform := rfl
@[simp] theorem State.faultedWith_reg (s : State) (f : Fault) (q : Reg) : (s.faultedWith f).reg q = s.reg q := rfl
@[simp] theorem State.faultedWith_regs (s : State) (f : Fault) : (s.faultedWith f).regs = s.regs := rfl

@[simp] theorem State.setFlags_pc (s : State) (g e l : Bool) : (s.setFlags g e l).pc = s.pc := rfl
@[simp] theorem State.setFlags_greater (s : State) (g e l : Bool) : (s.setFlags g e l).greater = g := rfl
@[simp] theorem State.setFlags_equal (s : State) (g e l : Bool) : (s.setFlags g e l).equal = e := rfl
@[simp] theorem State.setFlags_smaller (s : State) (g e l : Bool) : (s.setFlags g e l).smaller = l := rfl
@[simp] theorem State.setFlags_sp (s : State) (g e l : Bool) : (s.setFlags g e l).sp = s.sp := rfl
@[simp] theorem State.setFlags_mem (s : State) (g e l : Bool) : (s.setFlags g e l).mem = s.mem := rfl
@[simp] theorem State.setFlags_status (s : State) (g e l : Bool) : (s.setFlags g e l).status = s.status := rfl
@[simp] theorem State.setFlags_platform (s : State) (g e l : Bool) : (s.setFlags g e l).platform = s.platform := rfl
@[simp] theorem State.setFlags_reg (s : State) (g e l : Bool) (q : Reg) : (s.setFlags g e l).reg q = s.reg q := rfl
@[simp] theorem State.setFlags_regs (s : State) (g e l : Bool) : (s.setFlags g e l).regs = s.regs := rfl

/-! ### Registers -/

/-- A written register reads as written. -/
@[simp] theorem State.setReg_reg_same (s : State) (r : Reg) (v : Word) : (s.setReg r v).reg r = v := by
  simp [State.setReg, State.reg]

/-- Another register reads as before. -/
theorem State.setReg_reg_other (s : State) (r q : Reg) (v : Word) (h : q ≠ r) : (s.setReg r v).reg q = s.reg q := by
  have h' : r.val ≠ q.val := fun e => h (Fin.ext e.symm)
  simp [State.setReg, State.reg, h']

/-- Any register after a write. -/
theorem State.setReg_reg (s : State) (r q : Reg) (v : Word) : (s.setReg r v).reg q = if q = r then v else s.reg q := by
  split
  · subst_vars; simp
  · exact s.setReg_reg_other r q v ‹_›

/-! ### Reading a byte depends on memory alone -/

/-- Two states with the same memory read alike. -/
theorem State.readByte_congr {s t : State} (h : t.mem = s.mem) (x : Word) : t.readByte x = s.readByte x := by
  simp [State.readByte, h]

@[simp] theorem State.setReg_readByte (s : State) (r : Reg) (v : Word) (x : Word) : (s.setReg r v).readByte x = s.readByte x := rfl
@[simp] theorem State.offsetPc_readByte (s : State) (off : Word) (x : Word) : (s.offsetPc off).readByte x = s.readByte x := rfl
@[simp] theorem State.advance_readByte (s : State) (x : Word) : (s.advance).readByte x = s.readByte x := rfl
@[simp] theorem State.setSp_readByte (s : State) (v : Word) (x : Word) : (s.setSp v).readByte x = s.readByte x := rfl
@[simp] theorem State.faultedWith_readByte (s : State) (f : Fault) (x : Word) : (s.faultedWith f).readByte x = s.readByte x := rfl
@[simp] theorem State.setFlags_readByte (s : State) (g e l : Bool) (x : Word) : (s.setFlags g e l).readByte x = s.readByte x := rfl

/-! ### Reset under any platform -/

/-- What reset gives, field by field (rule R230). -/
theorem State.resetWith_fields (p : Platform) (rpc rsp : Word) (image : Memory) (regs : Vector Word 16) (g e l : Bool) :
    (State.resetWith p rpc rsp image regs g e l).pc = rpc ∧ (State.resetWith p rpc rsp image regs g e l).sp = rsp ∧
    (State.resetWith p rpc rsp image regs g e l).mem = image ∧
    (State.resetWith p rpc rsp image regs g e l).status = .running ∧
    (State.resetWith p rpc rsp image regs g e l).platform = p := ⟨rfl, rfl, rfl, rfl, rfl⟩

end Sys2Proof.Machine
end

