-- ==== Sys2Proof/Laws/Memory.lean ====
section
/-! SUPPORT. Memory as a list of cells: reading after writing, the canonical form, and which addresses an access of several
bytes touches (`20_memory.md` rules R40 to R45). -/

namespace Sys2Proof.Machine

/-! ### One byte -/

/-- The written address reads as written. -/
theorem Memory.read_write_same (m : Memory) (a : Nat) (v : Byte) : Memory.read (Memory.write m a v) a = some v := by
  induction m with
  | nil => simp [Memory.write, Memory.read]
  | cons c rest ih =>
    obtain ⟨k, w⟩ := c
    simp only [Memory.write]
    split
    · simp [Memory.read]
    · split
      · simp [Memory.read]
      · rw [Memory.read, if_neg (by omega), ih]

/-- Every other address reads as before. -/
theorem Memory.read_write_other (m : Memory) (a b : Nat) (v : Byte) (h : b ≠ a) :
    Memory.read (Memory.write m a v) b = Memory.read m b := by
  induction m with
  | nil => simp [Memory.write, Memory.read, h.symm]
  | cons c rest ih =>
    obtain ⟨k, w⟩ := c
    simp only [Memory.write]
    split
    · simp [Memory.read, h.symm]
    · split
      · subst_vars; simp [Memory.read, h.symm]
      · simp only [Memory.read, ih]

/-- Which cells a write leaves in the list. -/
theorem Memory.mem_write (m : Memory) (a : Nat) (v : Byte) (c : Host.Cell) (h : c ∈ Memory.write m a v) :
    c = (a, v) ∨ c ∈ m := by
  induction m with
  | nil => simpa [Memory.write] using h
  | cons d rest ih =>
    obtain ⟨k, w⟩ := d
    simp only [Memory.write] at h
    split at h
    · simpa using h
    · split at h
      · rcases List.mem_cons.mp h with h | h
        · exact .inl h
        · exact .inr (List.mem_cons_of_mem _ h)
      · rcases List.mem_cons.mp h with h | h
        · exact .inr (h ▸ List.mem_cons_self)
        · rcases ih h with h | h
          · exact .inl h
          · exact .inr (List.mem_cons_of_mem _ h)

/-- A write at a 64-bit address keeps the canonical form. -/
theorem Memory.wf_write (m : Memory) (a : Nat) (v : Byte) (ha : a < 2 ^ 64) (h : Memory.wf m) :
    Memory.wf (Memory.write m a v) := by
  refine ⟨?_, ?_⟩
  · have hp := h.1
    clear h
    induction m with
    | nil => simp [Memory.write]
    | cons d rest ih =>
      obtain ⟨k, w⟩ := d
      rw [List.pairwise_cons] at hp
      simp only [Memory.write]
      split
      · refine List.pairwise_cons.mpr ⟨?_, List.pairwise_cons.mpr hp⟩
        intro c hc
        rcases List.mem_cons.mp hc with rfl | hc
        · assumption
        · exact Nat.lt_trans ‹a < k› (hp.1 c hc)
      · split
        · subst_vars; exact List.pairwise_cons.mpr hp
        · refine List.pairwise_cons.mpr ⟨?_, ih hp.2⟩
          intro c hc
          rcases Memory.mem_write rest a v c hc with rfl | hc
          · show k < a
            omega
          · exact hp.1 c hc
  · intro c hc
    rcases Memory.mem_write m a v c hc with rfl | hc
    · exact ha
    · exact h.2 c hc

/-- An address below every listed one is not listed. -/
theorem Memory.read_of_lt (m : Memory) (a : Nat) (h : ∀ c ∈ m, a < c.1) : Memory.read m a = none := by
  induction m with
  | nil => rfl
  | cons d rest ih =>
    obtain ⟨k, w⟩ := d
    have hk : a < k := h (k, w) List.mem_cons_self
    rw [Memory.read, if_neg (by omega)]
    exact ih fun c hc => h c (List.mem_cons_of_mem _ hc)

/-- The canonical form is canonical: memories that list the same byte at every address are equal data. -/
theorem Memory.eq_of_read (m n : Memory) (hm : Memory.wf m) (hn : Memory.wf n)
    (h : ∀ a, Memory.read m a = Memory.read n a) : m = n := by
  obtain ⟨hm, -⟩ := hm
  obtain ⟨hn, -⟩ := hn
  induction m generalizing n with
  | nil =>
    cases n with
    | nil => rfl
    | cons d rest =>
      have := h d.1
      simp [Memory.read] at this
  | cons c rest ih =>
    obtain ⟨k, w⟩ := c
    cases n with
    | nil =>
      have := h k
      simp [Memory.read] at this
    | cons d rest' =>
      obtain ⟨k', w'⟩ := d
      rw [List.pairwise_cons] at hm hn
      have hk : k = k' := by
        rcases Nat.lt_trichotomy k k' with hlt | heq | hlt
        · have h1 := h k
          rw [Memory.read_of_lt ((k', w') :: rest') k ?_] at h1
          · simp [Memory.read] at h1
          · intro c hc
            rcases List.mem_cons.mp hc with rfl | hc
            · exact hlt
            · exact Nat.lt_trans hlt (hn.1 c hc)
        · exact heq
        · have h1 := h k'
          rw [Memory.read_of_lt ((k, w) :: rest) k' ?_] at h1
          · simp [Memory.read] at h1
          · intro c hc
            rcases List.mem_cons.mp hc with rfl | hc
            · exact hlt
            · exact Nat.lt_trans hlt (hm.1 c hc)
      subst hk
      have hw : w = w' := by simpa [Memory.read] using h k
      subst hw
      have hrest : rest = rest' := by
        refine ih rest' ?_ hm.2 hn.2
        intro a
        by_cases ha : k = a
        · subst ha
          rw [Memory.read_of_lt rest k (fun c hc => hm.1 c hc), Memory.read_of_lt rest' k (fun c hc => hn.1 c hc)]
        · simpa [Memory.read, ha] using h a
      rw [hrest]

/-! ### Several bytes -/

/-- Addresses at different offsets below 2^64 differ. -/
theorem addr_ne (a : Word) (j k : Nat) (hj : j < 2 ^ 64) (hk : k < 2 ^ 64) (h : j ≠ k) :
    a + BitVec.ofNat 64 j ≠ a + BitVec.ofNat 64 k := by
  intro e
  have e1 := (BitVec.add_right_inj a).mp e
  have e2 := congrArg BitVec.toNat e1
  rw [BitVec.toNat_ofNat, BitVec.toNat_ofNat, Nat.mod_eq_of_lt hj, Nat.mod_eq_of_lt hk] at e2
  exact h e2

/-- A stored byte reads back (rules R44, R45). -/
theorem Memory.read_storeBytes (m : Memory) (a v : Word) (n k : Nat) (hk : k < n) (hn : n ≤ 2 ^ 64) :
    Memory.read (Memory.storeBytes m a v n) (a + BitVec.ofNat 64 k).toNat = some (byteLane v k) := by
  induction n with
  | zero => omega
  | succ n ih =>
    rw [Memory.storeBytes]
    by_cases h : k = n
    · subst h; exact Memory.read_write_same ..
    · rw [Memory.read_write_other _ _ _ _ fun e => addr_ne a k n (by omega) (by omega) h (BitVec.eq_of_toNat_eq e)]
      exact ih (by omega) (by omega)

/-- A byte outside the stored ones reads as before (rule R44). -/
theorem Memory.read_storeBytes_other (m : Memory) (a v x : Word) (n : Nat)
    (h : ∀ k < n, x ≠ a + BitVec.ofNat 64 k) :
    Memory.read (Memory.storeBytes m a v n) x.toNat = Memory.read m x.toNat := by
  induction n with
  | zero => rfl
  | succ n ih =>
    rw [Memory.storeBytes, Memory.read_write_other _ _ _ _ fun e => h n (by omega) (BitVec.eq_of_toNat_eq e)]
    exact ih fun k hk => h k (by omega)

/-- Storing bytes keeps the canonical form. -/
theorem Memory.wf_storeBytes (m : Memory) (a v : Word) (n : Nat) (h : Memory.wf m) :
    Memory.wf (Memory.storeBytes m a v n) := by
  induction n with
  | zero => exact h
  | succ n ih => exact Memory.wf_write _ _ _ (BitVec.isLt _) ih

/-- Which cells storing bytes leaves in the list. -/
theorem Memory.mem_storeBytes (m : Memory) (a v : Word) (n : Nat) (c : Host.Cell)
    (h : c ∈ Memory.storeBytes m a v n) : (∃ k < n, c.1 = (a + BitVec.ofNat 64 k).toNat) ∨ c ∈ m := by
  induction n with
  | zero => exact .inr h
  | succ n ih =>
    rcases Memory.mem_write _ _ _ _ h with rfl | h
    · exact .inl ⟨n, by omega, rfl⟩
    · rcases ih h with ⟨k, hk, e⟩ | h
      · exact .inl ⟨k, by omega, e⟩
      · exact .inr h

/-- Laying out a program keeps the canonical form. -/
theorem Memory.wf_storeProgram (m : Memory) (a : Word) (ws : List InstrWord) (h : Memory.wf m) :
    Memory.wf (Memory.storeProgram m a ws) := by
  induction ws generalizing m a with
  | nil => exact h
  | cons w rest ih => exact ih _ _ (Memory.wf_storeBytes _ _ _ _ h)

/-! ### Populated addresses -/

/-- There is no hole exactly when every address is populated (rule R42). -/
theorem Platform.firstHole_none (p : Platform) (a : Word) (n : Nat) :
    p.firstHole a n = none ↔ ∀ k < n, p.isPopulated (a + BitVec.ofNat 64 k) = true := by
  induction n with
  | zero => simp [Platform.firstHole]
  | succ n ih =>
    rw [Platform.firstHole]
    cases hh : p.firstHole a n with
    | some h =>
      simp only [reduceCtorEq, false_iff]
      intro hall
      rw [ih.mpr fun k hk => hall k (by omega)] at hh
      cases hh
    | none =>
      have hprev := ih.mp hh
      cases hp : p.isPopulated (a + BitVec.ofNat 64 n) with
      | true =>
        simp only [if_true, true_iff]
        intro k hk
        by_cases e : k = n
        · rw [e]; exact hp
        · exact hprev k (by omega)
      | false =>
        simp only [Bool.false_eq_true, if_false, reduceCtorEq, false_iff]
        intro hall
        rw [hall n (by omega)] at hp
        cases hp

/-- A hole is the first unpopulated address in the order of access (rule R42). -/
theorem Platform.firstHole_some (p : Platform) (a h : Word) (n : Nat) :
    p.firstHole a n = some h ↔
      ∃ k < n, h = a + BitVec.ofNat 64 k ∧ p.isPopulated h = false ∧
        ∀ j < k, p.isPopulated (a + BitVec.ofNat 64 j) = true := by
  induction n with
  | zero => simp [Platform.firstHole]
  | succ n ih =>
    rw [Platform.firstHole]
    cases hh : p.firstHole a n with
    | some g =>
      rw [hh] at ih
      constructor
      · intro e
        obtain ⟨k, hk, hrest⟩ := ih.mp e
        exact ⟨k, by omega, hrest⟩
      · rintro ⟨k, hk, e, hp, hall⟩
        by_cases hkn : k = n
        · subst hkn
          rw [(Platform.firstHole_none p a k).mpr hall] at hh
          cases hh
        · exact ih.mpr ⟨k, by omega, e, hp, hall⟩
    | none =>
      have hall := (Platform.firstHole_none p a n).mp hh
      cases hp : p.isPopulated (a + BitVec.ofNat 64 n) with
      | true =>
        simp only [if_true, reduceCtorEq, false_iff]
        rintro ⟨k, hk, e, hp', -⟩
        by_cases hkn : k = n
        · rw [e, hkn, hp] at hp'; cases hp'
        · rw [e, hall k (by omega)] at hp'; cases hp'
      | false =>
        simp only [Bool.false_eq_true, if_false, Option.some.injEq]
        constructor
        · rintro rfl
          exact ⟨n, by omega, rfl, hp, hall⟩
        · rintro ⟨k, hk, e, hp', -⟩
          by_cases hkn : k = n
          · rw [e, hkn]
          · rw [e, hall k (by omega)] at hp'; cases hp'

/-! ### Bytes of a loaded value -/

/-- A lane of a placed byte. -/
theorem byteLane_placeByte (b : Byte) (j k : Nat) (hk : k < 8) :
    byteLane (placeByte b j) k = if k = j then b else 0#8 := by
  apply BitVec.eq_of_getLsbD_eq
  intro i hi
  simp only [byteLane, placeByte, BitVec.getLsbD_extractLsb', hi, decide_true, Bool.true_and, BitVec.getLsbD_shiftLeft,
    BitVec.getLsbD_setWidth]
  have h64 : 8 * k + i < 64 := by omega
  split
  · subst_vars
    have h2 : i < 64 := by omega
    simp [h2, h64]
  · rcases Nat.lt_or_gt_of_ne ‹k ≠ j› with h | h
    · have h1 : 8 * k + i < 8 * j := by omega
      simp [h1]
    · have h1 : b.getLsbD (8 * k + i - 8 * j) = false := BitVec.getLsbD_of_ge _ _ (by omega)
      simp [h1]

/-- A lane of an or. -/
theorem byteLane_or (p q : Word) (k : Nat) : byteLane (p ||| q) k = byteLane p k ||| byteLane q k := by
  apply BitVec.eq_of_getLsbD_eq
  intro i hi
  simp [byteLane, hi]

/-- Byte `k` of a loaded value is the byte at address `a + k`; lanes past the access are 0 (rules R43, R45). -/
theorem State.byteLane_loadBytes (s : State) (a : Word) (n k : Nat) (hk : k < 8) :
    byteLane (s.loadBytes a n) k = if k < n then s.readByte (a + BitVec.ofNat 64 k) else 0#8 := by
  induction n with
  | zero =>
    apply BitVec.eq_of_getLsbD_eq
    intro i hi
    simp [State.loadBytes, byteLane]
  | succ n ih =>
    rw [State.loadBytes, byteLane_or, ih, byteLane_placeByte _ _ _ hk]
    by_cases h1 : k < n
    · rw [if_pos h1, if_neg (by omega), if_pos (by omega), BitVec.or_zero]
    · by_cases h2 : k = n
      · subst h2; simp
      · rw [if_neg h1, if_neg h2, if_neg (by omega), BitVec.or_zero]

/-- Two words with the same eight bytes are equal. -/
theorem eq_of_byteLane_eq (p q : Word) (h : ∀ k < 8, byteLane p k = byteLane q k) : p = q := by
  apply BitVec.eq_of_getLsbD_eq
  intro i hi
  have h1 := congrArg (fun b => b.getLsbD (i % 8)) (h (i / 8) (by omega))
  have h2 : 8 * (i / 8) + i % 8 = i := by omega
  have h3 : i % 8 < 8 := by omega
  simpa only [byteLane, BitVec.getLsbD_extractLsb', h2, h3, decide_true, Bool.true_and] using h1

end Sys2Proof.Machine
end

