-- ==== Sys2Proof/Laws/Ops.lean ====
section
/-! SUPPORT. One lemma per shared operation that says once everything it can do. -/

namespace Sys2Proof.Machine

/-! ### Raising a fault (rule R207) -/

/-- Raising a fault writes `status` and nothing else. -/
theorem State.raise_eq (s : State) (f : Fault) : s.raise f = .next (s.faultedWith f) := rfl

/-! ### Memory access (rules R42 to R44) -/

/-- A read whose every byte is populated gives the bytes. -/
theorem State.memRead_populated (s : State) (a : Word) (n : Nat)
    (h : ∀ k < n, s.platform.isPopulated (a + BitVec.ofNat 64 k) = true) : s.memRead a n = .ok (s.loadBytes a n) := by
  simp [State.memRead, (Platform.firstHole_none s.platform a n).mpr h]

/-- A read that meets an unpopulated byte names the first of them. -/
theorem State.memRead_hole (s : State) (a h : Word) (n k : Nat) (hk : k < n) (e : h = a + BitVec.ofNat 64 k)
    (hp : s.platform.isPopulated h = false) (hall : ∀ j < k, s.platform.isPopulated (a + BitVec.ofNat 64 j) = true) :
    s.memRead a n = .error (.accessFault h) := by
  simp [State.memRead, (Platform.firstHole_some s.platform a h n).mpr ⟨k, hk, e, hp, hall⟩]

/-- Everything a read can answer. -/
theorem State.memRead_cases (s : State) (a : Word) (n : Nat) :
    ((∀ k < n, s.platform.isPopulated (a + BitVec.ofNat 64 k) = true) ∧ s.memRead a n = .ok (s.loadBytes a n)) ∨
    (∃ h, (∃ k < n, h = a + BitVec.ofNat 64 k ∧ s.platform.isPopulated h = false ∧
        ∀ j < k, s.platform.isPopulated (a + BitVec.ofNat 64 j) = true) ∧ s.memRead a n = .error (.accessFault h)) := by
  cases hh : s.platform.firstHole a n with
  | none => exact .inl ⟨(Platform.firstHole_none _ _ _).mp hh, by simp [State.memRead, hh]⟩
  | some h => exact .inr ⟨h, (Platform.firstHole_some _ _ _ _).mp hh, by simp [State.memRead, hh]⟩

/-- A write whose every byte is populated stores the bytes. -/
theorem State.memWrite_populated (s : State) (a v : Word) (n : Nat)
    (h : ∀ k < n, s.platform.isPopulated (a + BitVec.ofNat 64 k) = true) :
    s.memWrite a n v = .ok (s.setMem (s.mem.storeBytes a v n)) := by
  simp [State.memWrite, (Platform.firstHole_none s.platform a n).mpr h]

/-- A write that meets an unpopulated byte names the first of them and writes nothing. -/
theorem State.memWrite_hole (s : State) (a v h : Word) (n k : Nat) (hk : k < n) (e : h = a + BitVec.ofNat 64 k)
    (hp : s.platform.isPopulated h = false) (hall : ∀ j < k, s.platform.isPopulated (a + BitVec.ofNat 64 j) = true) :
    s.memWrite a n v = .error (.accessFault h) := by
  simp [State.memWrite, (Platform.firstHole_some s.platform a h n).mpr ⟨k, hk, e, hp, hall⟩]

/-- Everything a write can answer. -/
theorem State.memWrite_cases (s : State) (a v : Word) (n : Nat) :
    ((∀ k < n, s.platform.isPopulated (a + BitVec.ofNat 64 k) = true) ∧
        s.memWrite a n v = .ok (s.setMem (s.mem.storeBytes a v n))) ∨
    (∃ h, (∃ k < n, h = a + BitVec.ofNat 64 k ∧ s.platform.isPopulated h = false ∧
        ∀ j < k, s.platform.isPopulated (a + BitVec.ofNat 64 j) = true) ∧
        s.memWrite a n v = .error (.accessFault h)) := by
  cases hh : s.platform.firstHole a n with
  | none => exact .inl ⟨(Platform.firstHole_none _ _ _).mp hh, by simp [State.memWrite, hh]⟩
  | some h => exact .inr ⟨h, (Platform.firstHole_some _ _ _ _).mp hh, by simp [State.memWrite, hh]⟩

/-- A stored byte reads back through the state. -/
theorem State.readByte_stored (s : State) (a v : Word) (n k : Nat) (hk : k < n) (hn : n ≤ 2 ^ 64) :
    (s.setMem (s.mem.storeBytes a v n)).readByte (a + BitVec.ofNat 64 k) = byteLane v k := by
  rw [State.readByte, State.setMem_mem, Memory.read_storeBytes _ _ _ _ _ hk hn, Option.getD_some]

/-- A byte outside the stored ones reads as before through the state. -/
theorem State.readByte_notStored (s : State) (a v x : Word) (n : Nat) (h : ∀ k < n, x ≠ a + BitVec.ofNat 64 k) :
    (s.setMem (s.mem.storeBytes a v n)).readByte x = s.readByte x := by
  simp [State.readByte, Memory.read_storeBytes_other _ _ _ _ _ h]

/-- Eight stored bytes load as the stored value (rule R45). -/
theorem State.loadBytes_stored (s : State) (a v : Word) : (s.setMem (s.mem.storeBytes a v 8)).loadBytes a 8 = v := by
  apply eq_of_byteLane_eq
  intro k hk
  rw [State.byteLane_loadBytes _ _ _ _ hk, if_pos hk, State.readByte_stored _ _ _ _ _ hk (by decide)]

/-! ### Shapes of an effect -/

/-- `writeResult` writes one register and advances. -/
theorem State.writeResult_next {s t : State} {a : Reg} {v : Word} (h : s.writeResult a v = .next t) :
    t = (s.setReg a v).advance := by
  cases h; rfl

/-- `writeQuotient` raises `DivideByZero` exactly when the divisor is zero (rule R118). -/
theorem State.writeQuotient_next {s t : State} {a : Reg} {d v : Word} (h : s.writeQuotient a d v = .next t) :
    (d = 0 ∧ t = s.faultedWith .divideByZero) ∨ (d ≠ 0 ∧ t = (s.setReg a v).advance) := by
  unfold State.writeQuotient at h
  split at h
  · exact .inl ⟨‹_›, by cases h; rfl⟩
  · exact .inr ⟨‹_›, State.writeResult_next h⟩

/-- A lane load reads a populated byte or raises `AccessFault` for its address. -/
theorem State.loadLane_next {s t : State} {a : Reg} {addr : Word} {lane : Nat} (h : s.loadLane a addr lane = .next t) :
    (s.platform.isPopulated addr = true ∧ t = (s.setReg a (placeByte (s.readByte addr) lane)).advance) ∨
    (s.platform.isPopulated addr = false ∧ t = s.faultedWith (.accessFault addr)) := by
  unfold State.loadLane at h
  rcases s.memRead_cases addr 1 with ⟨hp, e⟩ | ⟨hole, ⟨k, hk, rfl, hp, -⟩, e⟩
  · rw [e] at h
    have hb : byteLane (s.loadBytes addr 1) 0 = s.readByte addr := by
      rw [s.byteLane_loadBytes addr 1 0 (by decide), if_pos (by decide), BitVec.add_zero]
    simp only [hb] at h
    exact .inl ⟨by simpa using hp 0 (by decide), State.writeResult_next h⟩
  · rw [e] at h
    obtain rfl : k = 0 := by omega
    simp only [BitVec.add_zero] at h hp
    exact .inr ⟨hp, by cases h; rfl⟩

/-- A lane store writes a populated byte or raises `AccessFault` for its address. -/
theorem State.storeLane_next {s t : State} {a : Reg} {addr : Word} {lane : Nat} (h : s.storeLane a addr lane = .next t) :
    (s.platform.isPopulated addr = true ∧
      t = (s.setMem (s.mem.storeBytes addr ((byteLane (s.reg a) lane).setWidth 64) 1)).advance) ∨
    (s.platform.isPopulated addr = false ∧ t = s.faultedWith (.accessFault addr)) := by
  unfold State.storeLane at h
  rcases s.memWrite_cases addr ((byteLane (s.reg a) lane).setWidth 64) 1 with ⟨hp, e⟩ | ⟨hole, ⟨k, hk, rfl, hp, -⟩, e⟩
  · rw [e] at h
    exact .inl ⟨by simpa using hp 0 (by decide), by cases h; rfl⟩
  · rw [e] at h
    obtain rfl : k = 0 := by omega
    simp only [BitVec.add_zero] at h hp
    exact .inr ⟨hp, by cases h; rfl⟩

/-- A push stores eight bytes at `sp` and adds 8 to it, or raises `AccessFault` (rule R164). -/
theorem State.pushWord_next {s t : State} {v : Word} (h : s.pushWord v = .next t) :
    ((∀ k < 8, s.platform.isPopulated (s.sp + BitVec.ofNat 64 k) = true) ∧
      t = ((s.setMem (s.mem.storeBytes s.sp v 8)).setSp (s.sp + 8)).advance) ∨
    (∃ hole, (∃ k < 8, hole = s.sp + BitVec.ofNat 64 k ∧ s.platform.isPopulated hole = false ∧
      ∀ j < k, s.platform.isPopulated (s.sp + BitVec.ofNat 64 j) = true) ∧ t = s.faultedWith (.accessFault hole)) := by
  unfold State.pushWord at h
  rcases s.memWrite_cases s.sp v 8 with ⟨hp, e⟩ | ⟨hole, hh, e⟩
  · rw [e] at h
    exact .inl ⟨hp, by cases h; rfl⟩
  · rw [e] at h
    exact .inr ⟨hole, hh, by cases h; rfl⟩

/-- A pop loads the eight bytes below `sp` and takes 8 from it, or raises `AccessFault` (rule R165). -/
theorem State.popWord_next {s t : State} {a : Reg} (h : s.popWord a = .next t) :
    ((∀ k < 8, s.platform.isPopulated (s.sp - 8 + BitVec.ofNat 64 k) = true) ∧
      t = ((s.setReg a (s.loadBytes (s.sp - 8) 8)).setSp (s.sp - 8)).advance) ∨
    (∃ hole, (∃ k < 8, hole = s.sp - 8 + BitVec.ofNat 64 k ∧ s.platform.isPopulated hole = false ∧
      ∀ j < k, s.platform.isPopulated (s.sp - 8 + BitVec.ofNat 64 j) = true) ∧
      t = s.faultedWith (.accessFault hole)) := by
  unfold State.popWord at h
  rcases s.memRead_cases (s.sp - stackSlot) 8 with ⟨hp, e⟩ | ⟨hole, hh, e⟩
  · rw [e] at h
    exact .inl ⟨hp, by cases h; rfl⟩
  · rw [e] at h
    exact .inr ⟨hole, hh, by cases h; rfl⟩

/-- A branch moves `pc` by its offset when taken and by 4 when not (rule R180). -/
theorem State.branch_next {s t : State} {taken : Bool} {off : Word} (h : s.branch taken off = .next t) :
    t = s.offsetPc (if taken then off else 4) := by
  cases taken <;> (cases h; rfl)

/-- A compare writes the three flags from the two integers and advances (rule R170). -/
theorem State.compare_next {s t : State} {p q : Int} (h : s.compare p q = .next t) :
    t = (s.setFlags (decide (p > q)) (decide (p = q)) (decide (p < q))).advance := by
  cases h; rfl

end Sys2Proof.Machine
end

