-- ==== Sys2Proof/Laws/Packing.lean ====
section
/-! SUPPORT. What each format's packing puts where: the opcode, each field, and zeros in the must-be-zero bits
(`30_encoding.md` rules R61, R63, R79). -/

namespace Sys2Proof

/-- Format `Z`: the opcode. -/
@[simp] theorem packZ_opcode (op : BitVec 8) : fieldOpcode (packZ op) = op := by
  simp [packZ, fieldOpcode, extract_putField_same]

/-- Format `Z`: every must-be-zero bit is 0. -/
theorem packZ_fixed (op : BitVec 8) :
    packZ op &&& Format.z.mask = putField (fieldOpcode (packZ op)) 24 := by
  rw [packZ_opcode]
  simp only [packZ]
  rw [putField_and_covered op 24 _ (by decide)]

/-- Format `RRR`: the opcode. -/
@[simp] theorem packRrr_opcode (op : BitVec 8) (a b c : Reg) : fieldOpcode (packRrr op a b c) = op := by
  simp [packRrr, fieldOpcode, extract_or, extract_putField_same, extract_putField_other]

/-- Format `RRR`: the register field `A`. -/
@[simp] theorem packRrr_fieldA (op : BitVec 8) (a b c : Reg) :
    fieldA (packRrr op a b c) = a := by
  simp [packRrr, fieldA, extract_or, extract_putField_same, extract_putField_other]

/-- Format `RRR`: the register field `B`. -/
@[simp] theorem packRrr_fieldB (op : BitVec 8) (a b c : Reg) :
    fieldB (packRrr op a b c) = b := by
  simp [packRrr, fieldB, extract_or, extract_putField_same, extract_putField_other]

/-- Format `RRR`: the register field `C`. -/
@[simp] theorem packRrr_fieldC (op : BitVec 8) (a b c : Reg) :
    fieldC (packRrr op a b c) = c := by
  simp [packRrr, fieldC, extract_or, extract_putField_same, extract_putField_other]

/-- Format `RRR`: every must-be-zero bit is 0. -/
theorem packRrr_fixed (op : BitVec 8) (a b c : Reg) :
    packRrr op a b c &&& Format.rrr.mask = putField (fieldOpcode (packRrr op a b c)) 24 := by
  rw [packRrr_opcode]
  simp only [packRrr, or_and_mask]
  rw [putField_and_covered op 24 _ (by decide),
    putField_and_clear (regBits a) 20 _ (by decide),
    putField_and_clear (regBits b) 16 _ (by decide),
    putField_and_clear (regBits c) 12 _ (by decide)]
  simp only [BitVec.or_zero]

/-- Format `RRI`: the opcode. -/
@[simp] theorem packRri_opcode (op : BitVec 8) (a b : Reg) (imm : Imm16) : fieldOpcode (packRri op a b imm) = op := by
  simp [packRri, fieldOpcode, extract_or, extract_putField_same, extract_putField_other]

/-- Format `RRI`: the register field `A`. -/
@[simp] theorem packRri_fieldA (op : BitVec 8) (a b : Reg) (imm : Imm16) :
    fieldA (packRri op a b imm) = a := by
  simp [packRri, fieldA, extract_or, extract_putField_same, extract_putField_other]

/-- Format `RRI`: the register field `B`. -/
@[simp] theorem packRri_fieldB (op : BitVec 8) (a b : Reg) (imm : Imm16) :
    fieldB (packRri op a b imm) = b := by
  simp [packRri, fieldB, extract_or, extract_putField_same, extract_putField_other]

/-- Format `RRI`: the 16-bit immediate. -/
@[simp] theorem packRri_fieldImm16 (op : BitVec 8) (a b : Reg) (imm : Imm16) :
    fieldImm16 (packRri op a b imm) = imm := by
  simp [packRri, fieldImm16, extract_or, extract_putField_same, extract_putField_other]

/-- Format `RRI`: every must-be-zero bit is 0. -/
theorem packRri_fixed (op : BitVec 8) (a b : Reg) (imm : Imm16) :
    packRri op a b imm &&& Format.rri.mask = putField (fieldOpcode (packRri op a b imm)) 24 := by
  rw [packRri_opcode]
  simp only [packRri, or_and_mask]
  rw [putField_and_covered op 24 _ (by decide),
    putField_and_clear (regBits a) 20 _ (by decide),
    putField_and_clear (regBits b) 16 _ (by decide),
    putField_and_clear imm 0 _ (by decide)]
  simp only [BitVec.or_zero]

/-- Format `RR`: the opcode. -/
@[simp] theorem packRr_opcode (op : BitVec 8) (a b : Reg) : fieldOpcode (packRr op a b) = op := by
  simp [packRr, fieldOpcode, extract_or, extract_putField_same, extract_putField_other]

/-- Format `RR`: the register field `A`. -/
@[simp] theorem packRr_fieldA (op : BitVec 8) (a b : Reg) :
    fieldA (packRr op a b) = a := by
  simp [packRr, fieldA, extract_or, extract_putField_same, extract_putField_other]

/-- Format `RR`: the register field `B`. -/
@[simp] theorem packRr_fieldB (op : BitVec 8) (a b : Reg) :
    fieldB (packRr op a b) = b := by
  simp [packRr, fieldB, extract_or, extract_putField_same, extract_putField_other]

/-- Format `RR`: every must-be-zero bit is 0. -/
theorem packRr_fixed (op : BitVec 8) (a b : Reg) :
    packRr op a b &&& Format.rr.mask = putField (fieldOpcode (packRr op a b)) 24 := by
  rw [packRr_opcode]
  simp only [packRr, or_and_mask]
  rw [putField_and_covered op 24 _ (by decide),
    putField_and_clear (regBits a) 20 _ (by decide),
    putField_and_clear (regBits b) 16 _ (by decide)]
  simp only [BitVec.or_zero]

/-- Format `RRI8`: the opcode. -/
@[simp] theorem packRri8_opcode (op : BitVec 8) (a b : Reg) (imm : Imm8) : fieldOpcode (packRri8 op a b imm) = op := by
  simp [packRri8, fieldOpcode, extract_or, extract_putField_same, extract_putField_other]

/-- Format `RRI8`: the register field `A`. -/
@[simp] theorem packRri8_fieldA (op : BitVec 8) (a b : Reg) (imm : Imm8) :
    fieldA (packRri8 op a b imm) = a := by
  simp [packRri8, fieldA, extract_or, extract_putField_same, extract_putField_other]

/-- Format `RRI8`: the register field `B`. -/
@[simp] theorem packRri8_fieldB (op : BitVec 8) (a b : Reg) (imm : Imm8) :
    fieldB (packRri8 op a b imm) = b := by
  simp [packRri8, fieldB, extract_or, extract_putField_same, extract_putField_other]

/-- Format `RRI8`: the 8-bit immediate. -/
@[simp] theorem packRri8_fieldImm8 (op : BitVec 8) (a b : Reg) (imm : Imm8) :
    fieldImm8 (packRri8 op a b imm) = imm := by
  simp [packRri8, fieldImm8, extract_or, extract_putField_same, extract_putField_other]

/-- Format `RRI8`: every must-be-zero bit is 0. -/
theorem packRri8_fixed (op : BitVec 8) (a b : Reg) (imm : Imm8) :
    packRri8 op a b imm &&& Format.rri8.mask = putField (fieldOpcode (packRri8 op a b imm)) 24 := by
  rw [packRri8_opcode]
  simp only [packRri8, or_and_mask]
  rw [putField_and_covered op 24 _ (by decide),
    putField_and_clear (regBits a) 20 _ (by decide),
    putField_and_clear (regBits b) 16 _ (by decide),
    putField_and_clear imm 0 _ (by decide)]
  simp only [BitVec.or_zero]

/-- Format `R`: the opcode. -/
@[simp] theorem packR_opcode (op : BitVec 8) (a : Reg) : fieldOpcode (packR op a) = op := by
  simp [packR, fieldOpcode, extract_or, extract_putField_same, extract_putField_other]

/-- Format `R`: the register field `A`. -/
@[simp] theorem packR_fieldA (op : BitVec 8) (a : Reg) :
    fieldA (packR op a) = a := by
  simp [packR, fieldA, extract_or, extract_putField_same, extract_putField_other]

/-- Format `R`: every must-be-zero bit is 0. -/
theorem packR_fixed (op : BitVec 8) (a : Reg) :
    packR op a &&& Format.r.mask = putField (fieldOpcode (packR op a)) 24 := by
  rw [packR_opcode]
  simp only [packR, or_and_mask]
  rw [putField_and_covered op 24 _ (by decide),
    putField_and_clear (regBits a) 20 _ (by decide)]
  simp only [BitVec.or_zero]

/-- Format `RI`: the opcode. -/
@[simp] theorem packRi_opcode (op : BitVec 8) (a : Reg) (imm : Imm16) : fieldOpcode (packRi op a imm) = op := by
  simp [packRi, fieldOpcode, extract_or, extract_putField_same, extract_putField_other]

/-- Format `RI`: the register field `A`. -/
@[simp] theorem packRi_fieldA (op : BitVec 8) (a : Reg) (imm : Imm16) :
    fieldA (packRi op a imm) = a := by
  simp [packRi, fieldA, extract_or, extract_putField_same, extract_putField_other]

/-- Format `RI`: the 16-bit immediate. -/
@[simp] theorem packRi_fieldImm16 (op : BitVec 8) (a : Reg) (imm : Imm16) :
    fieldImm16 (packRi op a imm) = imm := by
  simp [packRi, fieldImm16, extract_or, extract_putField_same, extract_putField_other]

/-- Format `RI`: every must-be-zero bit is 0. -/
theorem packRi_fixed (op : BitVec 8) (a : Reg) (imm : Imm16) :
    packRi op a imm &&& Format.ri.mask = putField (fieldOpcode (packRi op a imm)) 24 := by
  rw [packRi_opcode]
  simp only [packRi, or_and_mask]
  rw [putField_and_covered op 24 _ (by decide),
    putField_and_clear (regBits a) 20 _ (by decide),
    putField_and_clear imm 0 _ (by decide)]
  simp only [BitVec.or_zero]

/-- Format `I`: the opcode. -/
@[simp] theorem packI_opcode (op : BitVec 8) (imm : Imm16) : fieldOpcode (packI op imm) = op := by
  simp [packI, fieldOpcode, extract_or, extract_putField_same, extract_putField_other]

/-- Format `I`: the 16-bit immediate. -/
@[simp] theorem packI_fieldImm16 (op : BitVec 8) (imm : Imm16) :
    fieldImm16 (packI op imm) = imm := by
  simp [packI, fieldImm16, extract_or, extract_putField_same, extract_putField_other]

/-- Format `I`: every must-be-zero bit is 0. -/
theorem packI_fixed (op : BitVec 8) (imm : Imm16) :
    packI op imm &&& Format.i.mask = putField (fieldOpcode (packI op imm)) 24 := by
  rw [packI_opcode]
  simp only [packI, or_and_mask]
  rw [putField_and_covered op 24 _ (by decide),
    putField_and_clear imm 0 _ (by decide)]
  simp only [BitVec.or_zero]

/-- Format `LDI`: the opcode. -/
@[simp] theorem packLdi_opcode (op : BitVec 8) (a : Reg) (chunk : Nat) (imm : Imm16) : fieldOpcode (packLdi op a chunk imm) = op := by
  simp [packLdi, fieldOpcode, extract_or, extract_putField_same, extract_putField_other]

/-- Format `LDI`: the register field `A`. -/
@[simp] theorem packLdi_fieldA (op : BitVec 8) (a : Reg) (chunk : Nat) (imm : Imm16) :
    fieldA (packLdi op a chunk imm) = a := by
  simp [packLdi, fieldA, extract_or, extract_putField_same, extract_putField_other]

/-- Format `LDI`: the chunk number. -/
@[simp] theorem packLdi_fieldChunk (op : BitVec 8) (a : Reg) (chunk : Nat) (imm : Imm16) (h : chunk < 4) :
    fieldChunk (packLdi op a chunk imm) = chunk := by
  simp [packLdi, fieldChunk, extract_or, extract_putField_same, extract_putField_other]
  omega

/-- Format `LDI`: the 16-bit immediate. -/
@[simp] theorem packLdi_fieldImm16 (op : BitVec 8) (a : Reg) (chunk : Nat) (imm : Imm16) :
    fieldImm16 (packLdi op a chunk imm) = imm := by
  simp [packLdi, fieldImm16, extract_or, extract_putField_same, extract_putField_other]

/-- Format `LDI`: every must-be-zero bit is 0. -/
theorem packLdi_fixed (op : BitVec 8) (a : Reg) (chunk : Nat) (imm : Imm16) :
    packLdi op a chunk imm &&& Format.ldi.mask = putField (fieldOpcode (packLdi op a chunk imm)) 24 := by
  rw [packLdi_opcode]
  simp only [packLdi, or_and_mask]
  rw [putField_and_covered op 24 _ (by decide),
    putField_and_clear (regBits a) 20 _ (by decide),
    putField_and_clear (BitVec.ofNat 2 chunk) 16 _ (by decide),
    putField_and_clear imm 0 _ (by decide)]
  simp only [BitVec.or_zero]

/-- Format `MR`: the opcode. -/
@[simp] theorem packMr_opcode (op : BitVec 8) (a b : Reg) (lane : Nat) : fieldOpcode (packMr op a b lane) = op := by
  simp [packMr, fieldOpcode, extract_or, extract_putField_same, extract_putField_other]

/-- Format `MR`: the register field `A`. -/
@[simp] theorem packMr_fieldA (op : BitVec 8) (a b : Reg) (lane : Nat) :
    fieldA (packMr op a b lane) = a := by
  simp [packMr, fieldA, extract_or, extract_putField_same, extract_putField_other]

/-- Format `MR`: the register field `B`. -/
@[simp] theorem packMr_fieldB (op : BitVec 8) (a b : Reg) (lane : Nat) :
    fieldB (packMr op a b lane) = b := by
  simp [packMr, fieldB, extract_or, extract_putField_same, extract_putField_other]

/-- Format `MR`: the lane. -/
@[simp] theorem packMr_fieldLaneMR (op : BitVec 8) (a b : Reg) (lane : Nat) (h : lane < 8) :
    fieldLaneMR (packMr op a b lane) = lane := by
  simp [packMr, fieldLaneMR, extract_or, extract_putField_same, extract_putField_other]
  omega

/-- Format `MR`: every must-be-zero bit is 0. -/
theorem packMr_fixed (op : BitVec 8) (a b : Reg) (lane : Nat) :
    packMr op a b lane &&& Format.mr.mask = putField (fieldOpcode (packMr op a b lane)) 24 := by
  rw [packMr_opcode]
  simp only [packMr, or_and_mask]
  rw [putField_and_covered op 24 _ (by decide),
    putField_and_clear (regBits a) 20 _ (by decide),
    putField_and_clear (regBits b) 16 _ (by decide),
    putField_and_clear (BitVec.ofNat 3 lane) 0 _ (by decide)]
  simp only [BitVec.or_zero]

/-- Format `MI`: the opcode. -/
@[simp] theorem packMi_opcode (op : BitVec 8) (a : Reg) (lane : Nat) (imm : Imm16) : fieldOpcode (packMi op a lane imm) = op := by
  simp [packMi, fieldOpcode, extract_or, extract_putField_same, extract_putField_other]

/-- Format `MI`: the register field `A`. -/
@[simp] theorem packMi_fieldA (op : BitVec 8) (a : Reg) (lane : Nat) (imm : Imm16) :
    fieldA (packMi op a lane imm) = a := by
  simp [packMi, fieldA, extract_or, extract_putField_same, extract_putField_other]

/-- Format `MI`: the lane. -/
@[simp] theorem packMi_fieldLaneMI (op : BitVec 8) (a : Reg) (lane : Nat) (imm : Imm16) (h : lane < 8) :
    fieldLaneMI (packMi op a lane imm) = lane := by
  simp [packMi, fieldLaneMI, extract_or, extract_putField_same, extract_putField_other]
  omega

/-- Format `MI`: the 16-bit immediate. -/
@[simp] theorem packMi_fieldImm16 (op : BitVec 8) (a : Reg) (lane : Nat) (imm : Imm16) :
    fieldImm16 (packMi op a lane imm) = imm := by
  simp [packMi, fieldImm16, extract_or, extract_putField_same, extract_putField_other]

/-- Format `MI`: every must-be-zero bit is 0. -/
theorem packMi_fixed (op : BitVec 8) (a : Reg) (lane : Nat) (imm : Imm16) :
    packMi op a lane imm &&& Format.mi.mask = putField (fieldOpcode (packMi op a lane imm)) 24 := by
  rw [packMi_opcode]
  simp only [packMi, or_and_mask]
  rw [putField_and_covered op 24 _ (by decide),
    putField_and_clear (regBits a) 20 _ (by decide),
    putField_and_clear (BitVec.ofNat 3 lane) 16 _ (by decide),
    putField_and_clear imm 0 _ (by decide)]
  simp only [BitVec.or_zero]

end Sys2Proof
end

