-- ==== Sys2Proof/Laws/PerInstr.lean ====
section
/-! SUPPORT. Statements made per instruction. `EncodedFixedBits`: the word of an instruction has the fixed bits of its format:
its opcode in bits 31:24 and 0 in every must-be-zero bit (`30_encoding.md` rules R62, R63, R79). -/

/-- "`w & mask(F) = p << 24`" for the word `w` of `i` (rule R63). -/
def Sys2Proof.Laws.EncodedFixedBits.Statement (i : Sys2Proof.Instr) : Prop :=
  Sys2Proof.encode i &&& i.format.mask = Sys2Proof.putField (Sys2Proof.fieldOpcode (Sys2Proof.encode i)) 24

namespace Sys2Proof.Laws

theorem EncodedFixedBits.nop : EncodedFixedBits.Statement (Instr.nop) := packZ_fixed _
theorem EncodedFixedBits.add (a b c : Reg) : EncodedFixedBits.Statement (Instr.add a b c) := packRrr_fixed _ _ _ _
theorem EncodedFixedBits.addI (a b : Reg) (imm : Imm16) : EncodedFixedBits.Statement (Instr.addI a b imm) := packRri_fixed _ _ _ _
theorem EncodedFixedBits.sub (a b c : Reg) : EncodedFixedBits.Statement (Instr.sub a b c) := packRrr_fixed _ _ _ _
theorem EncodedFixedBits.subI (a b : Reg) (imm : Imm16) : EncodedFixedBits.Statement (Instr.subI a b imm) := packRri_fixed _ _ _ _
theorem EncodedFixedBits.subRi (a b : Reg) (imm : Imm16) : EncodedFixedBits.Statement (Instr.subRi a b imm) := packRri_fixed _ _ _ _
theorem EncodedFixedBits.mul (a b c : Reg) : EncodedFixedBits.Statement (Instr.mul a b c) := packRrr_fixed _ _ _ _
theorem EncodedFixedBits.mulI (a b : Reg) (imm : Imm16) : EncodedFixedBits.Statement (Instr.mulI a b imm) := packRri_fixed _ _ _ _
theorem EncodedFixedBits.div (a b c : Reg) : EncodedFixedBits.Statement (Instr.div a b c) := packRrr_fixed _ _ _ _
theorem EncodedFixedBits.divI (a b : Reg) (imm : Imm16) : EncodedFixedBits.Statement (Instr.divI a b imm) := packRri_fixed _ _ _ _
theorem EncodedFixedBits.divRi (a b : Reg) (imm : Imm16) : EncodedFixedBits.Statement (Instr.divRi a b imm) := packRri_fixed _ _ _ _
theorem EncodedFixedBits.sdiv (a b c : Reg) : EncodedFixedBits.Statement (Instr.sdiv a b c) := packRrr_fixed _ _ _ _
theorem EncodedFixedBits.sdivI (a b : Reg) (imm : Imm16) : EncodedFixedBits.Statement (Instr.sdivI a b imm) := packRri_fixed _ _ _ _
theorem EncodedFixedBits.sdivRi (a b : Reg) (imm : Imm16) : EncodedFixedBits.Statement (Instr.sdivRi a b imm) := packRri_fixed _ _ _ _
theorem EncodedFixedBits.and (a b c : Reg) : EncodedFixedBits.Statement (Instr.and a b c) := packRrr_fixed _ _ _ _
theorem EncodedFixedBits.or (a b c : Reg) : EncodedFixedBits.Statement (Instr.or a b c) := packRrr_fixed _ _ _ _
theorem EncodedFixedBits.xor (a b c : Reg) : EncodedFixedBits.Statement (Instr.xor a b c) := packRrr_fixed _ _ _ _
theorem EncodedFixedBits.not (a : Reg) : EncodedFixedBits.Statement (Instr.not a) := packR_fixed _ _
theorem EncodedFixedBits.nand (a b c : Reg) : EncodedFixedBits.Statement (Instr.nand a b c) := packRrr_fixed _ _ _ _
theorem EncodedFixedBits.nor (a b c : Reg) : EncodedFixedBits.Statement (Instr.nor a b c) := packRrr_fixed _ _ _ _
theorem EncodedFixedBits.xnor (a b c : Reg) : EncodedFixedBits.Statement (Instr.xnor a b c) := packRrr_fixed _ _ _ _
theorem EncodedFixedBits.mod (a b c : Reg) : EncodedFixedBits.Statement (Instr.mod a b c) := packRrr_fixed _ _ _ _
theorem EncodedFixedBits.modI (a b : Reg) (imm : Imm16) : EncodedFixedBits.Statement (Instr.modI a b imm) := packRri_fixed _ _ _ _
theorem EncodedFixedBits.modRi (a b : Reg) (imm : Imm16) : EncodedFixedBits.Statement (Instr.modRi a b imm) := packRri_fixed _ _ _ _
theorem EncodedFixedBits.smod (a b c : Reg) : EncodedFixedBits.Statement (Instr.smod a b c) := packRrr_fixed _ _ _ _
theorem EncodedFixedBits.smodI (a b : Reg) (imm : Imm16) : EncodedFixedBits.Statement (Instr.smodI a b imm) := packRri_fixed _ _ _ _
theorem EncodedFixedBits.smodRi (a b : Reg) (imm : Imm16) : EncodedFixedBits.Statement (Instr.smodRi a b imm) := packRri_fixed _ _ _ _
theorem EncodedFixedBits.rsh (a b c : Reg) : EncodedFixedBits.Statement (Instr.rsh a b c) := packRrr_fixed _ _ _ _
theorem EncodedFixedBits.rshI (a b : Reg) (imm : Imm8) : EncodedFixedBits.Statement (Instr.rshI a b imm) := packRri8_fixed _ _ _ _
theorem EncodedFixedBits.lsh (a b c : Reg) : EncodedFixedBits.Statement (Instr.lsh a b c) := packRrr_fixed _ _ _ _
theorem EncodedFixedBits.lshI (a b : Reg) (imm : Imm8) : EncodedFixedBits.Statement (Instr.lshI a b imm) := packRri8_fixed _ _ _ _
theorem EncodedFixedBits.ror (a b : Reg) : EncodedFixedBits.Statement (Instr.ror a b) := packRr_fixed _ _ _
theorem EncodedFixedBits.rol (a b : Reg) : EncodedFixedBits.Statement (Instr.rol a b) := packRr_fixed _ _ _
theorem EncodedFixedBits.mov (a b : Reg) : EncodedFixedBits.Statement (Instr.mov a b) := packRr_fixed _ _ _
theorem EncodedFixedBits.ldi (a : Reg) (chunk : Nat) (imm : Imm16) : EncodedFixedBits.Statement (Instr.ldi a chunk imm) := packLdi_fixed _ _ _ _
theorem EncodedFixedBits.ldr (a b : Reg) (lane : Nat) : EncodedFixedBits.Statement (Instr.ldr a b lane) := packMr_fixed _ _ _ _
theorem EncodedFixedBits.ldrI (a : Reg) (lane : Nat) (imm : Imm16) : EncodedFixedBits.Statement (Instr.ldrI a lane imm) := packMi_fixed _ _ _ _
theorem EncodedFixedBits.str (a b : Reg) (lane : Nat) : EncodedFixedBits.Statement (Instr.str a b lane) := packMr_fixed _ _ _ _
theorem EncodedFixedBits.strI (a : Reg) (lane : Nat) (imm : Imm16) : EncodedFixedBits.Statement (Instr.strI a lane imm) := packMi_fixed _ _ _ _
theorem EncodedFixedBits.push (a : Reg) : EncodedFixedBits.Statement (Instr.push a) := packR_fixed _ _
theorem EncodedFixedBits.pop (a : Reg) : EncodedFixedBits.Statement (Instr.pop a) := packR_fixed _ _
theorem EncodedFixedBits.cmp (a b : Reg) : EncodedFixedBits.Statement (Instr.cmp a b) := packRr_fixed _ _ _
theorem EncodedFixedBits.cmpI (a : Reg) (imm : Imm16) : EncodedFixedBits.Statement (Instr.cmpI a imm) := packRi_fixed _ _ _
theorem EncodedFixedBits.cmpRi (a : Reg) (imm : Imm16) : EncodedFixedBits.Statement (Instr.cmpRi a imm) := packRi_fixed _ _ _
theorem EncodedFixedBits.scmp (a b : Reg) : EncodedFixedBits.Statement (Instr.scmp a b) := packRr_fixed _ _ _
theorem EncodedFixedBits.scmpI (a : Reg) (imm : Imm16) : EncodedFixedBits.Statement (Instr.scmpI a imm) := packRi_fixed _ _ _
theorem EncodedFixedBits.scmpRi (a : Reg) (imm : Imm16) : EncodedFixedBits.Statement (Instr.scmpRi a imm) := packRi_fixed _ _ _
theorem EncodedFixedBits.b (a : Reg) : EncodedFixedBits.Statement (Instr.b a) := packR_fixed _ _
theorem EncodedFixedBits.bI (imm : Imm16) : EncodedFixedBits.Statement (Instr.bI imm) := packI_fixed _ _
theorem EncodedFixedBits.bg (a : Reg) : EncodedFixedBits.Statement (Instr.bg a) := packR_fixed _ _
theorem EncodedFixedBits.bgI (imm : Imm16) : EncodedFixedBits.Statement (Instr.bgI imm) := packI_fixed _ _
theorem EncodedFixedBits.be (a : Reg) : EncodedFixedBits.Statement (Instr.be a) := packR_fixed _ _
theorem EncodedFixedBits.beI (imm : Imm16) : EncodedFixedBits.Statement (Instr.beI imm) := packI_fixed _ _
theorem EncodedFixedBits.bs (a : Reg) : EncodedFixedBits.Statement (Instr.bs a) := packR_fixed _ _
theorem EncodedFixedBits.bsI (imm : Imm16) : EncodedFixedBits.Statement (Instr.bsI imm) := packI_fixed _ _

end Sys2Proof.Laws
end

