-- ==== Sys2Proof/Laws/Step.lean ====
section
/-! SUPPORT. Everything a fetch and a step can do. -/

namespace Sys2Proof.Machine

/-- Everything a fetch can answer (rules R47, R56, R205). -/
theorem fetch_cases (s : State) :
    (s.pc.toNat % 4 ≠ 0 ∧ fetch s = .error (.misalignedFetch s.pc)) ∨
    (s.pc.toNat % 4 = 0 ∧ ∃ h, s.memRead s.pc 4 = .error (.accessFault h) ∧ fetch s = .error (.accessFault h)) ∨
    (s.pc.toNat % 4 = 0 ∧ (∀ k < 4, s.platform.isPopulated (s.pc + BitVec.ofNat 64 k) = true) ∧
      fetch s = .ok ((s.loadBytes s.pc 4).setWidth 32)) := by
  by_cases hpc : s.pc.toNat % 4 = 0
  · rcases s.memRead_cases s.pc 4 with ⟨hp, e⟩ | ⟨h, -, e⟩
    · exact .inr (.inr ⟨hpc, hp, by simp [fetch, hpc, e]⟩)
    · exact .inr (.inl ⟨hpc, h, e, by simp [fetch, hpc, e]⟩)
  · exact .inl ⟨hpc, by simp [fetch, hpc]⟩

/-- Everything a fetch and decoding can answer (rule R205). -/
theorem fetchDecode_cases (s : State) :
    (∃ f, fetch s = .error f ∧ fetchDecode s = .error f) ∨
    (∃ w e, fetch s = .ok w ∧ decode w = .error e ∧ fetchDecode s = .error (.illegalInstruction w)) ∨
    (∃ w i, fetch s = .ok w ∧ decode w = .ok i ∧ fetchDecode s = .ok i) := by
  cases hf : fetch s with
  | error f => exact .inl ⟨f, rfl, by simp [fetchDecode, hf]⟩
  | ok w =>
    cases hd : decode w with
    | error e => exact .inr (.inl ⟨w, e, rfl, hd, by simp [fetchDecode, hf, hd]⟩)
    | ok i => exact .inr (.inr ⟨w, i, rfl, hd, by simp [fetchDecode, hf, hd]⟩)

/-- What a step that answers a next state has done (rules R207, R234, R235): it raised a fault of the fetch or decoding, or
executed the fetched instruction. -/
theorem step_next {s t : State} (h : step s = .next t) :
    s.status = .running ∧ s.platform.endPc ≠ some s.pc ∧
    ((∃ f, fetchDecode s = .error f ∧ t = s.faultedWith f) ∨ (∃ i, fetchDecode s = .ok i ∧ exec i s = .next t)) := by
  unfold step at h
  cases hs : s.status with
  | faulted f => simp [hs] at h
  | running =>
    rw [hs] at h
    by_cases he : s.platform.endPc = some s.pc
    · simp [he] at h
    · simp only [if_neg he] at h
      refine ⟨rfl, he, ?_⟩
      cases hd : fetchDecode s with
      | error f =>
        rw [hd] at h
        exact .inl ⟨f, rfl, by cases h; rfl⟩
      | ok i =>
        rw [hd] at h
        exact .inr ⟨i, rfl, h⟩

/-- A step of a running machine away from its end address, by what the fetch and decoding answer. -/
theorem step_running (s : State) (hs : s.status = .running) (he : s.platform.endPc ≠ some s.pc) :
    step s = match fetchDecode s with
      | .error f => s.raise f
      | .ok i => exec i s := by
  cases h : fetchDecode s <;> simp [step, hs, he, h]

end Sys2Proof.Machine
end

