-- ==== Sys2Proof/Machine/Assembly.lean ====
section
/-! DEFINITION. The spec's own labels and assembler syntax (`30_encoding.md` rules R83, R84, decision D27). The machine does not
depend on it. Of the spellings rule R83 allows for an immediate this prints the decimal one, signed in the signed forms. -/

namespace Sys2Proof.Machine

/-- `r0` to `r15` (rule R83). -/
def asmReg (r : Reg) : String := "r" ++ toString r.val

/-- An immediate as its unsigned field value (rule R83). -/
def asmUnsigned (imm : Imm16) : String := toString imm.toNat

/-- An immediate of a signed form (rules R72, R83). -/
def asmSigned (imm : Imm16) : String := if imm.msb then "-" ++ toString (-imm).toNat else toString imm.toNat

/-- A mnemonic and its operands (rule R83). -/
def asmLine (mnemonic : String) (operands : List String) : String := mnemonic ++ " " ++ ", ".intercalate operands

/-- A register or immediate in brackets: the address of a load or store (rule R83). -/
def asmAddress (operand : String) : String := "[" ++ operand ++ "]"

/-- Three registers, the RRR forms of arithmetic and logic (rule R83). -/
def asmRrr (m : String) (a b c : Reg) : String := asmLine m [asmReg a, asmReg b, asmReg c]

/-- Two registers. -/
def asmRr (m : String) (a b : Reg) : String := asmLine m [asmReg a, asmReg b]

/-- An instruction's line; the variant shows in the kinds of the operands, never in the mnemonic, and the ignored field `B` of
the shifts and rotates is not written (rule R83). -/
def assembly : Instr → String
  | .nop => "nop"
  | .add a b c => asmRrr "add" a b c
  | .addI a b imm => asmLine "add" [asmReg a, asmReg b, asmUnsigned imm]
  | .sub a b c => asmRrr "sub" a b c
  | .subI a b imm => asmLine "sub" [asmReg a, asmReg b, asmUnsigned imm]
  | .subRi a b imm => asmLine "sub" [asmReg a, asmUnsigned imm, asmReg b]
  | .mul a b c => asmRrr "mul" a b c
  | .mulI a b imm => asmLine "mul" [asmReg a, asmReg b, asmUnsigned imm]
  | .div a b c => asmRrr "div" a b c
  | .divI a b imm => asmLine "div" [asmReg a, asmReg b, asmUnsigned imm]
  | .divRi a b imm => asmLine "div" [asmReg a, asmUnsigned imm, asmReg b]
  | .sdiv a b c => asmRrr "sdiv" a b c
  | .sdivI a b imm => asmLine "sdiv" [asmReg a, asmReg b, asmSigned imm]
  | .sdivRi a b imm => asmLine "sdiv" [asmReg a, asmSigned imm, asmReg b]
  | .and a b c => asmRrr "and" a b c
  | .or a b c => asmRrr "or" a b c
  | .xor a b c => asmRrr "xor" a b c
  | .not a => asmLine "not" [asmReg a]
  | .nand a b c => asmRrr "nand" a b c
  | .nor a b c => asmRrr "nor" a b c
  | .xnor a b c => asmRrr "xnor" a b c
  | .mod a b c => asmRrr "mod" a b c
  | .modI a b imm => asmLine "mod" [asmReg a, asmReg b, asmUnsigned imm]
  | .modRi a b imm => asmLine "mod" [asmReg a, asmUnsigned imm, asmReg b]
  | .smod a b c => asmRrr "smod" a b c
  | .smodI a b imm => asmLine "smod" [asmReg a, asmReg b, asmSigned imm]
  | .smodRi a b imm => asmLine "smod" [asmReg a, asmSigned imm, asmReg b]
  | .rsh a _ c => asmRr "rsh" a c
  | .rshI a _ imm => asmLine "rsh" [asmReg a, toString imm.toNat]
  | .lsh a _ c => asmRr "lsh" a c
  | .lshI a _ imm => asmLine "lsh" [asmReg a, toString imm.toNat]
  | .ror a _ => asmLine "ror" [asmReg a]
  | .rol a _ => asmLine "rol" [asmReg a]
  | .mov a b => asmRr "mov" a b
  | .ldi a chunk imm => asmLine "ldi" [asmReg a, toString chunk, asmUnsigned imm]
  | .ldr a b lane => asmLine "ldr" [asmReg a, asmAddress (asmReg b), toString lane]
  | .ldrI a lane imm => asmLine "ldr" [asmReg a, asmAddress (asmUnsigned imm), toString lane]
  | .str a b lane => asmLine "str" [asmReg a, asmAddress (asmReg b), toString lane]
  | .strI a lane imm => asmLine "str" [asmReg a, asmAddress (asmUnsigned imm), toString lane]
  | .push a => asmLine "push" [asmReg a]
  | .pop a => asmLine "pop" [asmReg a]
  | .cmp a b => asmRr "cmp" a b
  | .cmpI a imm => asmLine "cmp" [asmReg a, asmUnsigned imm]
  | .cmpRi a imm => asmLine "cmp" [asmUnsigned imm, asmReg a]
  | .scmp a b => asmRr "scmp" a b
  | .scmpI a imm => asmLine "scmp" [asmReg a, asmSigned imm]
  | .scmpRi a imm => asmLine "scmp" [asmSigned imm, asmReg a]
  | .b a => asmLine "b" [asmReg a]
  | .bI imm => asmLine "b" [asmSigned imm]
  | .bg a => asmLine "bg" [asmReg a]
  | .bgI imm => asmLine "bg" [asmSigned imm]
  | .be a => asmLine "be" [asmReg a]
  | .beI imm => asmLine "be" [asmSigned imm]
  | .bs a => asmLine "bs" [asmReg a]
  | .bsI imm => asmLine "bs" [asmSigned imm]

end Sys2Proof.Machine
end

