-- ==== Sys2Proof/Tests/Slice0.lean ====
section
/-! SUPPORT. Tests. Words, vectors and their expected results are the spec's own (`95_test_vectors.md`: `E` rows of table 1, `V`
rows of section 2, whose platform is `State.reset`'s); each test names its row. At the end, for every statement with hypotheses, states
and operands that meet them. -/

namespace Sys2Proof.Tests

open Sys2Proof.Machine

/-! ### Well-formedness: each check refuses an ill-formed term, and allows the last number that exists -/

theorem test_wellFormed_ldi_chunk : (Instr.ldi 1 4 0).wellFormed = false ∧ (Instr.ldi 1 3 0).wellFormed = true := by decide
theorem test_wellFormed_ldr_lane : (Instr.ldr 1 2 8).wellFormed = false ∧ (Instr.ldr 1 2 7).wellFormed = true := by decide
theorem test_wellFormed_ldrI_lane : (Instr.ldrI 1 8 0).wellFormed = false ∧ (Instr.ldrI 1 7 0).wellFormed = true := by decide
theorem test_wellFormed_str_lane : (Instr.str 1 2 8).wellFormed = false ∧ (Instr.str 1 2 7).wellFormed = true := by decide
theorem test_wellFormed_strI_lane : (Instr.strI 1 8 0).wellFormed = false ∧ (Instr.strI 1 7 0).wellFormed = true := by decide

/-! ### Decoding and encoding every instruction: the word of each E row and its fields -/

/-- Rows E1 to E14. -/
theorem test_decode_arithmetic :
    [0x00000000, 0x01123000, 0x02121234, 0x03123000, 0x04121234, 0x05121234, 0x06123000, 0x07121234,
      0x08123000, 0x09121234, 0x0A121234, 0x0B123000, 0x0C121234, 0x0D121234].map (decodeTableWord 32) =
    [some (.nop), some (.add 1 2 3), some (.addI 1 2 0x1234), some (.sub 1 2 3),
      some (.subI 1 2 0x1234), some (.subRi 1 2 0x1234), some (.mul 1 2 3), some (.mulI 1 2 0x1234),
      some (.div 1 2 3), some (.divI 1 2 0x1234), some (.divRi 1 2 0x1234), some (.sdiv 1 2 3),
      some (.sdivI 1 2 0x1234), some (.sdivRi 1 2 0x1234)] := by decide

theorem test_encode_arithmetic :
    [Instr.nop, .add 1 2 3, .addI 1 2 0x1234, .sub 1 2 3, .subI 1 2 0x1234, .subRi 1 2 0x1234,
      .mul 1 2 3, .mulI 1 2 0x1234, .div 1 2 3, .divI 1 2 0x1234, .divRi 1 2 0x1234, .sdiv 1 2 3,
      .sdivI 1 2 0x1234, .sdivRi 1 2 0x1234].map encode =
    [0x00000000#32, 0x01123000#32, 0x02121234#32, 0x03123000#32, 0x04121234#32, 0x05121234#32,
      0x06123000#32, 0x07121234#32, 0x08123000#32, 0x09121234#32, 0x0A121234#32, 0x0B123000#32,
      0x0C121234#32, 0x0D121234#32] := by decide

/-- Rows E15 to E21. -/
theorem test_decode_logic :
    [0x0E123000, 0x0F123000, 0x10123000, 0x11100000, 0x12123000, 0x13123000, 0x14123000].map (decodeTableWord 32) =
    [some (.and 1 2 3), some (.or 1 2 3), some (.xor 1 2 3), some (.not 1),
      some (.nand 1 2 3), some (.nor 1 2 3), some (.xnor 1 2 3)] := by decide

theorem test_encode_logic :
    [Instr.and 1 2 3, .or 1 2 3, .xor 1 2 3, .not 1, .nand 1 2 3, .nor 1 2 3,
      .xnor 1 2 3].map encode =
    [0x0E123000#32, 0x0F123000#32, 0x10123000#32, 0x11100000#32, 0x12123000#32, 0x13123000#32,
      0x14123000#32] := by decide

/-- Rows E22 to E27. -/
theorem test_decode_modulo :
    [0x15123000, 0x16121234, 0x17121234, 0x18123000, 0x19121234, 0x1A121234].map (decodeTableWord 32) =
    [some (.mod 1 2 3), some (.modI 1 2 0x1234), some (.modRi 1 2 0x1234), some (.smod 1 2 3),
      some (.smodI 1 2 0x1234), some (.smodRi 1 2 0x1234)] := by decide

theorem test_encode_modulo :
    [Instr.mod 1 2 3, .modI 1 2 0x1234, .modRi 1 2 0x1234, .smod 1 2 3, .smodI 1 2 0x1234, .smodRi 1 2 0x1234].map encode =
    [0x15123000#32, 0x16121234#32, 0x17121234#32, 0x18123000#32, 0x19121234#32, 0x1A121234#32] := by decide

/-- Rows E28 to E33. -/
theorem test_decode_shifts :
    [0x1B123000, 0x1C120012, 0x1D123000, 0x1E120012, 0x1F120000, 0x20120000].map (decodeTableWord 32) =
    [some (.rsh 1 2 3), some (.rshI 1 2 0x12), some (.lsh 1 2 3), some (.lshI 1 2 0x12),
      some (.ror 1 2), some (.rol 1 2)] := by decide

theorem test_encode_shifts :
    [Instr.rsh 1 2 3, .rshI 1 2 0x12, .lsh 1 2 3, .lshI 1 2 0x12, .ror 1 2, .rol 1 2].map encode =
    [0x1B123000#32, 0x1C120012#32, 0x1D123000#32, 0x1E120012#32, 0x1F120000#32, 0x20120000#32] := by decide

/-- Rows E34 to E35. -/
theorem test_decode_moves :
    [0x21120000, 0x22121234].map (decodeTableWord 32) =
    [some (.mov 1 2), some (.ldi 1 2 0x1234)] := by decide

theorem test_encode_moves :
    [Instr.mov 1 2, .ldi 1 2 0x1234].map encode =
    [0x21120000#32, 0x22121234#32] := by decide

/-- Rows E36 to E41. -/
theorem test_decode_memory :
    [0x24120005, 0x25151234, 0x26120005, 0x27151234, 0x28100000, 0x29100000].map (decodeTableWord 32) =
    [some (.ldr 1 2 5), some (.ldrI 1 5 0x1234), some (.str 1 2 5), some (.strI 1 5 0x1234),
      some (.push 1), some (.pop 1)] := by decide

theorem test_encode_memory :
    [Instr.ldr 1 2 5, .ldrI 1 5 0x1234, .str 1 2 5, .strI 1 5 0x1234, .push 1, .pop 1].map encode =
    [0x24120005#32, 0x25151234#32, 0x26120005#32, 0x27151234#32, 0x28100000#32, 0x29100000#32] := by decide

/-- Rows E42 to E47. -/
theorem test_decode_compares :
    [0x2A120000, 0x2B101234, 0x2C101234, 0x2D120000, 0x2E101234, 0x2F101234].map (decodeTableWord 32) =
    [some (.cmp 1 2), some (.cmpI 1 0x1234), some (.cmpRi 1 0x1234), some (.scmp 1 2),
      some (.scmpI 1 0x1234), some (.scmpRi 1 0x1234)] := by decide

theorem test_encode_compares :
    [Instr.cmp 1 2, .cmpI 1 0x1234, .cmpRi 1 0x1234, .scmp 1 2, .scmpI 1 0x1234, .scmpRi 1 0x1234].map encode =
    [0x2A120000#32, 0x2B101234#32, 0x2C101234#32, 0x2D120000#32, 0x2E101234#32, 0x2F101234#32] := by decide

/-- Rows E48 to E55. -/
theorem test_decode_branches :
    [0x30100000, 0x31001234, 0x32100000, 0x33001234, 0x34100000, 0x35001234, 0x36100000, 0x37001234].map (decodeTableWord 32) =
    [some (.b 1), some (.bI 0x1234), some (.bg 1), some (.bgI 0x1234),
      some (.be 1), some (.beI 0x1234), some (.bs 1), some (.bsI 0x1234)] := by decide

theorem test_encode_branches :
    [Instr.b 1, .bI 0x1234, .bg 1, .bgI 0x1234, .be 1, .beI 0x1234,
      .bs 1, .bsI 0x1234].map encode =
    [0x30100000#32, 0x31001234#32, 0x32100000#32, 0x33001234#32, 0x34100000#32, 0x35001234#32,
      0x36100000#32, 0x37001234#32] := by decide

/-- A 1 in a must-be-zero bit: the words of V36, V63, V80, V86, V89, V100, V112, V118, V130, V131, V132, V133. -/
theorem test_decode_mustBeZero :
    [0x11120000#32, 0x1C100108#32, 0x2214BEEF#32, 0x24420008#32, 0x25380100#32, 0x28100001#32,
      0x2B210005#32, 0x31100000#32, 0x00000001#32, 0x00100000#32, 0x01123001#32, 0x21120100#32].map decode = List.replicate 12 (.error .mustBeZero) := by decide

/-- Opcodes that name no instruction: the words of V81, V134, V135, V136. -/
theorem test_decode_reservedOpcode :
    [0x23000000#32, 0x38000000#32, 0x3B000000#32, 0xFFFFFFFF#32].map decode = List.replicate 4 (.error .reservedOpcode) := by
  decide

theorem test_decode_tooFewBytes : decodeBytes [0, 0, 0] = .error .tooFewBytes := by decide

/-- The byte at the lowest address is least significant (`20_memory.md` rule R45), and the fifth byte is left over. -/
theorem test_decodeBytes : decodeBytes [0x00, 0x30, 0x12, 0x01, 0xFF] = .ok (.add 1 2 3, [0xFF]) := by decide

/-- Fewer bits than a word: every bit above them is 0. -/
theorem test_decodeTableWord_short : decodeTableWord 8 0 = some .nop := by decide

/-! ### One step: the spec's vectors -/

/-- A running machine of the spec's example platform with the word `w` at `pc` and the listed registers. -/
def vec (pc : Word) (w : Nat) (rs : List (Reg × Word)) : State :=
  (rs.foldl (fun (s : State) p => s.setReg p.1 p.2)
   { State.reset with pc := pc, mem := Memory.storeProgram [] pc [BitVec.ofNat 32 w] })

/-- Bytes put into memory. -/
def putBytes (bs : List (Word × Byte)) (s : State) : State :=
  bs.foldl (fun (s : State) p => s.setMem (Memory.write s.mem p.1.toNat p.2)) s

/-- What `f` reads of the state after one step. -/
def after {α : Type} (s : State) (f : State → α) : Option α :=
  match step s with
  | .next t => some (f t)
  | _ => none

theorem test_v1_nop :
    after (vec 0x1000 0x00000000 []) (fun t => (t.pc)) =
      some (0x1004) := by decide
theorem test_v2_add :
    after (vec 0x1000 0x01123000 [(2, 0xFFFFFFFFFFFFFFFF), (3, 0x0000000000000002)]) (fun t => (t.reg 1, t.pc)) =
      some (0x0000000000000001, 0x1004) := by decide
theorem test_v3_add :
    after (vec 0x1000 0x01111000 [(1, 0x8000000000000000)]) (fun t => (t.reg 1, t.pc)) =
      some (0x0000000000000000, 0x1004) := by decide
theorem test_v4_addI :
    after (vec 0x1000 0x0212FFFF [(2, 0x0000000000000005)]) (fun t => (t.reg 1, t.pc)) =
      some (0x0000000000010004, 0x1004) := by decide
theorem test_v5_addI :
    after (vec 0x1000 0x02330001 [(3, 0xFFFFFFFFFFFFFFFF)]) (fun t => (t.reg 3, t.pc)) =
      some (0x0000000000000000, 0x1004) := by decide
theorem test_v6_sub :
    after (vec 0x1000 0x03123000 [(2, 0x0000000000000000), (3, 0x0000000000000001)]) (fun t => (t.reg 1, t.pc)) =
      some (0xFFFFFFFFFFFFFFFF, 0x1004) := by decide
theorem test_v7_subI :
    after (vec 0x1000 0x04120007 [(2, 0x0000000000000005)]) (fun t => (t.reg 1, t.pc)) =
      some (0xFFFFFFFFFFFFFFFE, 0x1004) := by decide
theorem test_v8_subI :
    after (vec 0x1000 0x04330001 [(3, 0x0000000000000000)]) (fun t => (t.reg 3, t.pc)) =
      some (0xFFFFFFFFFFFFFFFF, 0x1004) := by decide
theorem test_v9_subRi :
    after (vec 0x1000 0x05120000 [(2, 0x0000000000000007)]) (fun t => (t.reg 1, t.pc)) =
      some (0xFFFFFFFFFFFFFFF9, 0x1004) := by decide
theorem test_v10_subRi :
    after (vec 0x1000 0x0512FFFF [(2, 0x0000000000000001)]) (fun t => (t.reg 1, t.pc)) =
      some (0x000000000000FFFE, 0x1004) := by decide
theorem test_v11_mul :
    after (vec 0x1000 0x06123000 [(2, 0xFFFFFFFFFFFFFFFF), (3, 0xFFFFFFFFFFFFFFFF)]) (fun t => (t.reg 1, t.pc)) =
      some (0x0000000000000001, 0x1004) := by decide
theorem test_v12_mul :
    after (vec 0x1000 0x06123000 [(2, 0x0000000100000000), (3, 0x0000000100000000)]) (fun t => (t.reg 1, t.pc)) =
      some (0x0000000000000000, 0x1004) := by decide
theorem test_v13_mulI :
    after (vec 0x1000 0x07120002 [(2, 0x8000000000000001)]) (fun t => (t.reg 1, t.pc)) =
      some (0x0000000000000002, 0x1004) := by decide
theorem test_v14_mulI :
    after (vec 0x1000 0x0712FFFF [(2, 0xFFFFFFFFFFFFFFFF)]) (fun t => (t.reg 1, t.pc)) =
      some (0xFFFFFFFFFFFF0001, 0x1004) := by decide
theorem test_v15_div :
    after (vec 0x1000 0x08123000 [(2, 0xFFFFFFFFFFFFFFFF), (3, 0x0000000000000002)]) (fun t => (t.reg 1, t.pc)) =
      some (0x7FFFFFFFFFFFFFFF, 0x1004) := by decide
theorem test_v16_div :
    after (vec 0x1000 0x08123000 [(2, 0x0000000000000005), (3, 0x0000000000000000)]) (fun t => (t.status, t.pc)) =
      some (.faulted (.divideByZero), 0x1000) := by decide
theorem test_v17_divI :
    after (vec 0x1000 0x0912000A [(2, 0x0000000000000064)]) (fun t => (t.reg 1, t.pc)) =
      some (0x000000000000000A, 0x1004) := by decide
theorem test_v18_divI :
    after (vec 0x1000 0x09120000 [(2, 0x0000000000000064)]) (fun t => (t.status, t.pc)) =
      some (.faulted (.divideByZero), 0x1000) := by decide
theorem test_v19_divRi :
    after (vec 0x1000 0x0A120064 [(2, 0x0000000000000007)]) (fun t => (t.reg 1, t.pc)) =
      some (0x000000000000000E, 0x1004) := by decide
theorem test_v21_divRi :
    after (vec 0x1000 0x0A120064 [(2, 0x0000000000000000)]) (fun t => (t.status, t.pc)) =
      some (.faulted (.divideByZero), 0x1000) := by decide
theorem test_v22_sdiv :
    after (vec 0x1000 0x0B123000 [(2, 0xFFFFFFFFFFFFFFF9), (3, 0x0000000000000002)]) (fun t => (t.reg 1, t.pc)) =
      some (0xFFFFFFFFFFFFFFFD, 0x1004) := by decide
theorem test_v25_sdiv :
    after (vec 0x1000 0x0B123000 [(2, 0x8000000000000000), (3, 0xFFFFFFFFFFFFFFFF)]) (fun t => (t.reg 1, t.pc)) =
      some (0x8000000000000000, 0x1004) := by decide
theorem test_v27_sdivI :
    after (vec 0x1000 0x0C12FFFE [(2, 0x0000000000000007)]) (fun t => (t.reg 1, t.pc)) =
      some (0xFFFFFFFFFFFFFFFD, 0x1004) := by decide
theorem test_v28_sdivI :
    after (vec 0x1000 0x0C120000 [(2, 0x0000000000000007)]) (fun t => (t.status, t.pc)) =
      some (.faulted (.divideByZero), 0x1000) := by decide
theorem test_v29_sdivRi :
    after (vec 0x1000 0x0D12FFF9 [(2, 0x0000000000000002)]) (fun t => (t.reg 1, t.pc)) =
      some (0xFFFFFFFFFFFFFFFD, 0x1004) := by decide
theorem test_v30_sdivRi :
    after (vec 0x1000 0x0D128000 [(2, 0xFFFFFFFFFFFFFFFF)]) (fun t => (t.reg 1, t.pc)) =
      some (0x0000000000008000, 0x1004) := by decide
theorem test_v31_and :
    after (vec 0x1000 0x0E123000 [(2, 0xFF00FF00FF00FF00), (3, 0x0FF00FF00FF00FF0)]) (fun t => (t.reg 1, t.pc)) =
      some (0x0F000F000F000F00, 0x1004) := by decide
theorem test_v32_or :
    after (vec 0x1000 0x0F123000 [(2, 0xFF00FF00FF00FF00), (3, 0x0FF00FF00FF00FF0)]) (fun t => (t.reg 1, t.pc)) =
      some (0xFFF0FFF0FFF0FFF0, 0x1004) := by decide
theorem test_v33_xor :
    after (vec 0x1000 0x10123000 [(2, 0xFF00FF00FF00FF00), (3, 0x0FF00FF00FF00FF0)]) (fun t => (t.reg 1, t.pc)) =
      some (0xF0F0F0F0F0F0F0F0, 0x1004) := by decide
theorem test_v34_xor :
    after (vec 0x1000 0x10111000 [(1, 0x123456789ABCDEF0)]) (fun t => (t.reg 1, t.pc)) =
      some (0x0000000000000000, 0x1004) := by decide
theorem test_v35_not :
    after (vec 0x1000 0x11100000 [(1, 0x00000000FFFFFFFF)]) (fun t => (t.reg 1, t.pc)) =
      some (0xFFFFFFFF00000000, 0x1004) := by decide
theorem test_v37_nand :
    after (vec 0x1000 0x12123000 [(2, 0xFF00FF00FF00FF00), (3, 0x0FF00FF00FF00FF0)]) (fun t => (t.reg 1, t.pc)) =
      some (0xF0FFF0FFF0FFF0FF, 0x1004) := by decide
theorem test_v38_nor :
    after (vec 0x1000 0x13123000 [(2, 0xFF00FF00FF00FF00), (3, 0x0FF00FF00FF00FF0)]) (fun t => (t.reg 1, t.pc)) =
      some (0x000F000F000F000F, 0x1004) := by decide
theorem test_v39_nor :
    after (vec 0x1000 0x13122000 [(2, 0x00000000FFFFFFFF)]) (fun t => (t.reg 1, t.pc)) =
      some (0xFFFFFFFF00000000, 0x1004) := by decide
theorem test_v40_xnor :
    after (vec 0x1000 0x14123000 [(2, 0xFF00FF00FF00FF00), (3, 0x0FF00FF00FF00FF0)]) (fun t => (t.reg 1, t.pc)) =
      some (0x0F0F0F0F0F0F0F0F, 0x1004) := by decide
theorem test_v41_mod :
    after (vec 0x1000 0x15123000 [(2, 0xFFFFFFFFFFFFFFFF), (3, 0x000000000000000A)]) (fun t => (t.reg 1, t.pc)) =
      some (0x0000000000000005, 0x1004) := by decide
theorem test_v42_mod :
    after (vec 0x1000 0x15123000 [(2, 0xFFFFFFFFFFFFFFFF), (3, 0x0000000000000000)]) (fun t => (t.status, t.pc)) =
      some (.faulted (.divideByZero), 0x1000) := by decide
theorem test_v43_modI :
    after (vec 0x1000 0x16120007 [(2, 0x0000000000000064)]) (fun t => (t.reg 1, t.pc)) =
      some (0x0000000000000002, 0x1004) := by decide
theorem test_v44_modI :
    after (vec 0x1000 0x16120000 [(2, 0x0000000000000064)]) (fun t => (t.status, t.pc)) =
      some (.faulted (.divideByZero), 0x1000) := by decide
theorem test_v45_modRi :
    after (vec 0x1000 0x17120064 [(2, 0x0000000000000007)]) (fun t => (t.reg 1, t.pc)) =
      some (0x0000000000000002, 0x1004) := by decide
theorem test_v46_modRi :
    after (vec 0x1000 0x17120064 [(2, 0x0000000000000065)]) (fun t => (t.reg 1, t.pc)) =
      some (0x0000000000000064, 0x1004) := by decide
theorem test_v47_smod :
    after (vec 0x1000 0x18123000 [(2, 0xFFFFFFFFFFFFFFF9), (3, 0x0000000000000002)]) (fun t => (t.reg 1, t.pc)) =
      some (0xFFFFFFFFFFFFFFFF, 0x1004) := by decide
theorem test_v49_smod :
    after (vec 0x1000 0x18123000 [(2, 0x8000000000000000), (3, 0xFFFFFFFFFFFFFFFF)]) (fun t => (t.reg 1, t.pc)) =
      some (0x0000000000000000, 0x1004) := by decide
theorem test_v50_smodI :
    after (vec 0x1000 0x1912FFFE [(2, 0x0000000000000007)]) (fun t => (t.reg 1, t.pc)) =
      some (0x0000000000000001, 0x1004) := by decide
theorem test_v51_smodI :
    after (vec 0x1000 0x1912FFFE [(2, 0xFFFFFFFFFFFFFFF9)]) (fun t => (t.reg 1, t.pc)) =
      some (0xFFFFFFFFFFFFFFFF, 0x1004) := by decide
theorem test_v52_smodRi :
    after (vec 0x1000 0x1A12FFF9 [(2, 0x0000000000000002)]) (fun t => (t.reg 1, t.pc)) =
      some (0xFFFFFFFFFFFFFFFF, 0x1004) := by decide
theorem test_v53_smodRi :
    after (vec 0x1000 0x1A12FFF9 [(2, 0x0000000000000000)]) (fun t => (t.status, t.pc)) =
      some (.faulted (.divideByZero), 0x1000) := by decide
theorem test_v55_rsh :
    after (vec 0x1000 0x1B1F3000 [(1, 0x8000000000000000), (3, 0x0000000000000004), (15, 0x0000000000005555)]) (fun t => (t.reg 1, t.pc)) =
      some (0x0800000000000000, 0x1004) := by decide
theorem test_v56_rsh :
    after (vec 0x1000 0x1B103000 [(1, 0xFFFFFFFFFFFFFFFF), (3, 0x0000000000000040)]) (fun t => (t.reg 1, t.pc)) =
      some (0x0000000000000000, 0x1004) := by decide
theorem test_v60_rshI :
    after (vec 0x1000 0x1C100008 [(1, 0xFFFFFFFFFFFFFFFF)]) (fun t => (t.reg 1, t.pc)) =
      some (0x00FFFFFFFFFFFFFF, 0x1004) := by decide
theorem test_v62_rshI :
    after (vec 0x1000 0x1C1000FF [(1, 0xFFFFFFFFFFFFFFFF)]) (fun t => (t.reg 1, t.pc)) =
      some (0x0000000000000000, 0x1004) := by decide
theorem test_v64_lsh :
    after (vec 0x1000 0x1D103000 [(1, 0x0000000000000001), (3, 0x000000000000003F)]) (fun t => (t.reg 1, t.pc)) =
      some (0x8000000000000000, 0x1004) := by decide
theorem test_v65_lsh :
    after (vec 0x1000 0x1D103000 [(1, 0x0000000000000001), (3, 0x0000000000000040)]) (fun t => (t.reg 1, t.pc)) =
      some (0x0000000000000000, 0x1004) := by decide
theorem test_v66_lshI :
    after (vec 0x1000 0x1E100004 [(1, 0xF00000000000000F)]) (fun t => (t.reg 1, t.pc)) =
      some (0x00000000000000F0, 0x1004) := by decide
theorem test_v67_lshI :
    after (vec 0x1000 0x1E100040 [(1, 0xFFFFFFFFFFFFFFFF)]) (fun t => (t.reg 1, t.pc)) =
      some (0x0000000000000000, 0x1004) := by decide
theorem test_v68_ror :
    after (vec 0x1000 0x1F100000 [(1, 0x0000000000000001)]) (fun t => (t.reg 1, t.pc)) =
      some (0x8000000000000000, 0x1004) := by decide
theorem test_v69_ror :
    after (vec 0x1000 0x1F100000 [(1, 0x8000000000000002)]) (fun t => (t.reg 1, t.pc)) =
      some (0x4000000000000001, 0x1004) := by decide
theorem test_v70_rol :
    after (vec 0x1000 0x20100000 [(1, 0x8000000000000001)]) (fun t => (t.reg 1, t.pc)) =
      some (0x0000000000000003, 0x1004) := by decide
theorem test_v71_rol :
    after (vec 0x1000 0x20170000 [(1, 0x4000000000000000)]) (fun t => (t.reg 1, t.pc)) =
      some (0x8000000000000000, 0x1004) := by decide
theorem test_v72_mov :
    after (vec 0x1000 0x21120000 [(2, 0x123456789ABCDEF0)]) (fun t => (t.reg 1, t.pc)) =
      some (0x123456789ABCDEF0, 0x1004) := by decide
theorem test_v73_mov :
    after (vec 0x1000 0x21110000 [(1, 0x0000000000000042)]) (fun t => (t.reg 1, t.pc)) =
      some (0x0000000000000042, 0x1004) := by decide
theorem test_v75_ldi :
    after (vec 0x1000 0x2211BEEF [(1, 0xFFFFFFFFFFFFFFFF)]) (fun t => (t.reg 1, t.pc)) =
      some (0x00000000BEEF0000, 0x1004) := by decide
theorem test_v77_ldi :
    after (vec 0x1000 0x2213BEEF [(1, 0xFFFFFFFFFFFFFFFF)]) (fun t => (t.reg 1, t.pc)) =
      some (0xBEEF000000000000, 0x1004) := by decide
theorem test_v82_ldr :
    after (putBytes [(0x2000, 0xab)] (vec 0x1000 0x24420003 [(2, 0x0000000000002000), (4, 0xFFFFFFFFFFFFFFFF)])) (fun t => (t.reg 4, t.pc)) =
      some (0x00000000AB000000, 0x1004) := by decide
theorem test_v85_ldr :
    after (vec 0x1000 0x24420000 [(2, 0x0000000000010000)]) (fun t => (t.status, t.pc)) =
      some (.faulted (.accessFault 0x10000), 0x1000) := by decide
theorem test_v87_ldrI :
    after (putBytes [(0x100, 0xef)] (vec 0x1000 0x25310100 [])) (fun t => (t.reg 3, t.pc)) =
      some (0x000000000000EF00, 0x1004) := by decide
theorem test_v88_ldrI :
    after (putBytes [(0xffff, 0x1)] (vec 0x1000 0x2537FFFF [])) (fun t => (t.reg 3, t.pc)) =
      some (0x0100000000000000, 0x1004) := by decide
theorem test_v91_str :
    after (vec 0x1000 0x26120007 [(1, 0xA5000000000000FF), (2, 0x0000000000002000)]) (fun t => (t.readByte 0x2000, t.pc)) =
      some (0xA5, 0x1004) := by decide
theorem test_v92_str :
    after (vec 0x1000 0x26120000 [(1, 0x000000000000BEEF), (2, 0xFFFFFFFFFFFFFFFF)]) (fun t => (t.status, t.pc)) =
      some (.faulted (.accessFault 0xFFFFFFFFFFFFFFFF), 0x1000) := by decide
theorem test_v93_strI :
    after (vec 0x1000 0x27170200 [(1, 0xA5000000000000FF)]) (fun t => (t.readByte 0x200, t.pc)) =
      some (0xA5, 0x1004) := by decide
theorem test_v94_strI :
    after (vec 0x1000 0x27100200 [(1, 0xA5000000000000FF)]) (fun t => (t.readByte 0x200, t.pc)) =
      some (0xFF, 0x1004) := by decide
theorem test_v95_push :
    after ({ vec 0x1000 0x28100000 [(1, 0x1122334455667788)] with sp := 0x8000 }) (fun t => (t.sp, t.readByte 0x8000, t.readByte 0x8001, t.readByte 0x8002, t.readByte 0x8003, t.readByte 0x8004, t.readByte 0x8005, t.readByte 0x8006, t.readByte 0x8007, t.pc)) =
      some (0x8008, 0x88, 0x77, 0x66, 0x55, 0x44, 0x33, 0x22, 0x11, 0x1004) := by decide
theorem test_v97_push :
    after ({ vec 0x1000 0x28100000 [(1, 0x1122334455667788)] with sp := 0xFFFC }) (fun t => (t.status, t.pc)) =
      some (.faulted (.accessFault 0x10000), 0x1000) := by decide
theorem test_v98_pop :
    after ({ putBytes [(0x8000, 0x88), (0x8001, 0x77), (0x8002, 0x66), (0x8003, 0x55), (0x8004, 0x44), (0x8005, 0x33), (0x8006, 0x22), (0x8007, 0x11)] (vec 0x1000 0x29200000 []) with sp := 0x8008 }) (fun t => (t.reg 2, t.sp, t.pc)) =
      some (0x1122334455667788, 0x8000, 0x1004) := by decide
theorem test_v99_pop :
    after ({ vec 0x1000 0x29200000 [] with sp := 0x4 }) (fun t => (t.status, t.pc)) =
      some (.faulted (.accessFault 0xFFFFFFFFFFFFFFFC), 0x1000) := by decide
theorem test_v101_cmp :
    after (vec 0x1000 0x2A120000 [(1, 0xFFFFFFFFFFFFFFFF), (2, 0x0000000000000001)]) (fun t => (t.greater, t.equal, t.smaller, t.pc)) =
      some (true, false, false, 0x1004) := by decide
theorem test_v102_cmp :
    after ({ vec 0x1000 0x2A120000 [(1, 0x0000000000000001), (2, 0xFFFFFFFFFFFFFFFF)] with greater := true, equal := false, smaller := false }) (fun t => (t.greater, t.equal, t.smaller, t.pc)) =
      some (false, false, true, 0x1004) := by decide
theorem test_v104_cmpI :
    after (vec 0x1000 0x2B20000A [(2, 0x0000000000000009)]) (fun t => (t.greater, t.equal, t.smaller, t.pc)) =
      some (false, false, true, 0x1004) := by decide
theorem test_v105_cmpI :
    after (vec 0x1000 0x2B20FFFF [(2, 0xFFFFFFFFFFFFFFFF)]) (fun t => (t.greater, t.equal, t.smaller, t.pc)) =
      some (true, false, false, 0x1004) := by decide
theorem test_v106_cmpRi :
    after (vec 0x1000 0x2C20000A [(2, 0x0000000000000009)]) (fun t => (t.greater, t.equal, t.smaller, t.pc)) =
      some (true, false, false, 0x1004) := by decide
theorem test_v107_scmp :
    after (vec 0x1000 0x2D120000 [(1, 0xFFFFFFFFFFFFFFFF), (2, 0x0000000000000001)]) (fun t => (t.greater, t.equal, t.smaller, t.pc)) =
      some (false, false, true, 0x1004) := by decide
theorem test_v108_scmp :
    after (vec 0x1000 0x2D120000 [(1, 0x7FFFFFFFFFFFFFFF), (2, 0x8000000000000000)]) (fun t => (t.greater, t.equal, t.smaller, t.pc)) =
      some (true, false, false, 0x1004) := by decide
theorem test_v109_scmpI :
    after (vec 0x1000 0x2E10FFFF [(1, 0xFFFFFFFFFFFFFFFF)]) (fun t => (t.greater, t.equal, t.smaller, t.pc)) =
      some (false, true, false, 0x1004) := by decide
theorem test_v110_scmpI :
    after (vec 0x1000 0x2E10FFFF [(1, 0x000000000000FFFF)]) (fun t => (t.greater, t.equal, t.smaller, t.pc)) =
      some (true, false, false, 0x1004) := by decide
theorem test_v111_scmpRi :
    after (vec 0x1000 0x2F100000 [(1, 0xFFFFFFFFFFFFFFF9)]) (fun t => (t.greater, t.equal, t.smaller, t.pc)) =
      some (true, false, false, 0x1004) := by decide
theorem test_v114_b :
    after (vec 0x100 0x30500000 [(5, 0x0000000000010000)]) (fun t => (t.pc)) =
      some (0x10100) := by decide
theorem test_v117_bI :
    after (vec 0x100 0x31000002 []) (fun t => (t.pc)) =
      some (0x102) := by decide
theorem test_v119_bg :
    after ({ vec 0x100 0x32500000 [(5, 0x0000000000000020)] with greater := true, equal := false, smaller := false }) (fun t => (t.pc)) =
      some (0x120) := by decide
theorem test_v120_bg :
    after ({ vec 0x100 0x32500000 [(5, 0x0000000000000020)] with greater := false, equal := true, smaller := false }) (fun t => (t.pc)) =
      some (0x104) := by decide
theorem test_v121_bgI :
    after ({ vec 0x14 0x3300FFF4 [] with greater := true, equal := false, smaller := false }) (fun t => (t.pc)) =
      some (0x8) := by decide
theorem test_v122_bgI :
    after ({ vec 0x14 0x3300FFF4 [] with greater := false, equal := false, smaller := true }) (fun t => (t.pc)) =
      some (0x18) := by decide
theorem test_v123_be :
    after ({ vec 0x100 0x34500000 [(5, 0x0000000000000008)] with greater := false, equal := true, smaller := false }) (fun t => (t.pc)) =
      some (0x108) := by decide
theorem test_v124_beI :
    after ({ vec 0x100 0x35000008 [] with greater := false, equal := true, smaller := false }) (fun t => (t.pc)) =
      some (0x108) := by decide
theorem test_v125_beI :
    after ({ vec 0x100 0x35000008 [] with greater := true, equal := false, smaller := false }) (fun t => (t.pc)) =
      some (0x104) := by decide
theorem test_v126_bs :
    after ({ vec 0x100 0x36500000 [(5, 0xFFFFFFFFFFFFFFFC)] with greater := false, equal := false, smaller := true }) (fun t => (t.pc)) =
      some (0xFC) := by decide
theorem test_v127_bsI :
    after ({ vec 0x9000 0x37008000 [] with greater := false, equal := false, smaller := true }) (fun t => (t.pc)) =
      some (0x1000) := by decide
theorem test_v128_bsI :
    after ({ vec 0x9000 0x37008000 [] with greater := false, equal := true, smaller := false }) (fun t => (t.pc)) =
      some (0x9004) := by decide
theorem test_v136_reserved :
    after (vec 0x1000 0xFFFFFFFF []) (fun t => (t.status, t.pc)) =
      some (.faulted (.illegalInstruction 0xFFFFFFFF), 0x1000) := by decide
theorem test_v137_fetch :
    after (vec 0x1002 0x00000000 []) (fun t => (t.status, t.pc)) =
      some (.faulted (.misalignedFetch 0x1002), 0x1002) := by decide
theorem test_v138_fetch :
    after (vec 0x10000 0x00000000 []) (fun t => (t.status, t.pc)) =
      some (.faulted (.accessFault 0x10000), 0x10000) := by decide

/-! ### Pseudo-instructions, macros, assembly (`48_pseudoinstructions.md` rules R195 to R197, `30_encoding.md` rule R83) -/

/-- The examples of rules R195 and R196. -/
theorem test_pseudo : encode (pseudoInc 3) = 0x02330001#32 ∧ encode (pseudoDec 3) = 0x04330001#32 := by decide

theorem test_macros :
    macroBge 16 = [.bgI 16, .beI 12] ∧ macroBne 16 = [.bgI 16, .bsI 12] ∧ macroBse 16 = [.bsI 16, .beI 12] := by decide

/-- The assembly of V2, V19, V27, V60, V121, V71 and E37. -/
theorem test_assembly :
    assembly (.add 1 2 3) = "add r1, r2, r3" ∧ assembly (.divRi 1 2 100) = "div r1, 100, r2" ∧
    assembly (.sdivI 1 2 0xFFFE) = "sdiv r1, r2, -2" ∧ assembly (.rshI 1 0 8) = "rsh r1, 8" ∧
    assembly (.bgI 0xFFF4) = "bg -12" ∧ assembly (.rol 1 7) = "rol r1" ∧
    assembly (.ldrI 3 1 0x100) = "ldr r3, [256], 1" := by decide

/-! ### Reset, end of a run, placing an instruction -/

/-- `70_reset_and_hazards.md` rule R230: `pc` at `RESET_PC`, running; the default of `RESET_PC` is 0. -/
theorem test_reset : State.reset.pc = 0 ∧ State.reset.status = .running ∧ State.reset.mem = [] := by decide

/-- Rule R235: no step at `END_PC`. -/
theorem test_end : after { vec 0x1000 0 [] with platform := { Config.resetPlatform with endPc := some 0x1000 } } (fun t => t.pc) =
    none := by decide

/-- A placed instruction is the one the next step runs, from a misaligned and unpopulated `pc` too. -/
theorem test_withFetchWord :
    after (State.reset.withFetchWord 32 0x2210002A) (fun t => (t.reg 1, t.pc)) = some (42, 4) ∧
    after ({ State.reset with pc := 0x20002 }.withFetchWord 32 0x2210002A) (fun t => (t.reg 1, t.pc)) = some (42, 0x20004) := by
  decide

/-! ### Hypotheses that can be met: one theorem or more for each statement of `Obligations.lean` that has them -/

theorem test_met_DecodeOfEncodeIsTheInstruction :
    ∀ i ∈ [Instr.nop, .ldi 15 3 0xFFFF, .ldrI 15 7 0xFFFF, .str 0 15 7], i.wellFormed = true := by decide

theorem test_met_EncodeOfDecodedIsTheWord :
    decode 0x22FFFFFF#32 = .error .mustBeZero ∧ decode 0x22F3FFFF#32 = .ok (.ldi 15 3 0xFFFF) := by decide

theorem test_met_ReservedOpcodesAreRejected :
    fieldOpcode 0x23ABCDEF#32 = 0x23#8 ∧ 0x38 ≤ (fieldOpcode 0x38000000#32).toNat ∧
    0x38 ≤ (fieldOpcode 0xFF000000#32).toNat := by decide

theorem test_met_DefinedOpcodesDecodeUnlessAFixedBitIsSet :
    let i := Instr.add 1 2 3
    (fieldOpcode 0x01FFF000#32 = fieldOpcode (encode i) ∧
      0x01FFF000#32 &&& i.format.mask = putField (fieldOpcode 0x01FFF000#32) 24) ∧
    (fieldOpcode 0x01FFF001#32 = fieldOpcode (encode i) ∧
      0x01FFF001#32 &&& i.format.mask ≠ putField (fieldOpcode 0x01FFF001#32) 24) := by decide

/-- The least and the greatest offset whose second immediate fits. -/
theorem test_met_BranchMacrosBranchOnEitherFlag :
    sext16 (0x8004 - 4) = sext16 0x8004 - 4 ∧ sext16 (0x7FFF - 4) = sext16 0x7FFF - 4 ∧ sext16 (0 - 4) = sext16 0 - 4 := by decide

theorem test_met_NopOnlyAdvancesPc :
    let s := vec 0x1000 0x00000001 []
    fieldOpcode 0x00000001#32 = 0#8 ∧ 0x00000001#32 ≠ 0#32 ∧ s.status = .running ∧ s.platform.endPc ≠ some s.pc ∧
    fetch s = .ok 0x00000001#32 := by decide

/-- A machine with `x2 = v`, `x3 = d` and the instruction `nop` at 0x1000. -/
def two (v d : Word) : State := vec 0x1000 0 [(2, v), (3, d)]

/-- For `UnsignedDivisionIsFloor`, `SignedDivisionRoundsTowardZero`, `SignedModuloTakesTheDividendsSign` and
`SignedQuotientAndRemainderAgree`: divisors that are not 0 in each form, the least, the greatest, the one of the overflow case. -/
theorem test_met_divisorNotZero :
    (two 0x8000000000000000 1).reg 3 ≠ 0 ∧ (two 0x8000000000000000 0xFFFFFFFFFFFFFFFF).reg 3 ≠ 0 ∧ (1 : Imm16) ≠ 0 ∧ (0xFFFF : Imm16) ≠ 0 ∧
    (two 0xFFFFFFFFFFFFFFFF 0).reg 2 ≠ 0 := by decide

theorem test_met_ZeroDivisorRaisesDivideByZero : (two 5 0).reg 3 = 0 ∧ (two 0 5).reg 2 = 0 := by decide

theorem test_met_NotComplementsInPlace :
    fieldOpcode 0x11100001#32 = 0x11#8 ∧ (0x11100001#32).extractLsb' 0 20 ≠ 0#20 ∧
    fieldOpcode 0x11180000#32 = 0x11#8 ∧ (0x11180000#32).extractLsb' 0 20 ≠ 0#20 := by decide

theorem test_met_ShiftsOf64OrMoreGiveZero :
    64 ≤ ((two 1 64).reg 3).toNat ∧ 64 ≤ ((two 1 0xFFFFFFFFFFFFFFFF).reg 3).toNat ∧
    64 ≤ (64 : Imm8).toNat ∧ 64 ≤ (255 : Imm8).toNat := by decide

theorem test_met_LdiPlacesTheImmediateInOneChunk : 0 < 4 ∧ 3 < 4 := by decide

/-- For `LoadPlacesTheByteInOneLane` and `StoreWritesOneLaneToOneByte`: the first and the last populated byte, by a register and by
an immediate, with the first and the last lane. -/
theorem test_met_LoadAndStoreInMemory :
    0 < 8 ∧ 7 < 8 ∧ (two 0 0).platform.isPopulated ((two 0 0).reg 2) = true ∧
    (two 0xFFFF 0).platform.isPopulated ((two 0xFFFF 0).reg 2) = true ∧
    (two 0 0).platform.isPopulated ((0 : Imm16).setWidth 64) = true ∧
    (two 0 0).platform.isPopulated ((0xFFFF : Imm16).setWidth 64) = true := by decide

/-- A machine with 32 KiB of memory, so that an immediate address can lie outside it. -/
def small : State := { two 0 0 with platform := { populated := [{ base := 0, size := 0x8000 }], endPc := none } }

theorem test_met_ByteAccessOutsideMemoryFaults :
    (two 0x10000 0).platform.isPopulated ((two 0x10000 0).reg 2) = false ∧
    (two 0xFFFFFFFFFFFFFFFF 0).platform.isPopulated ((two 0xFFFFFFFFFFFFFFFF 0).reg 2) = false ∧
    small.platform.isPopulated ((0x8000 : Imm16).setWidth 64) = false ∧
    small.platform.isPopulated ((0xFFFF : Imm16).setWidth 64) = false := by decide

/-- A machine with `sp = a`. -/
def stackAt (a : Word) : State := { two a 0 with sp := a }

/-- For `PushStoresThenRaisesSp` and `PopUndoesPush`: the lowest and the highest slot of memory. -/
theorem test_met_pushInMemory : AllPopulated (stackAt 0) (stackAt 0).sp 8 ∧ AllPopulated (stackAt 0xFFF8) (stackAt 0xFFF8).sp 8 := by
  unfold AllPopulated; decide

theorem test_met_PopLowersSpThenLoads :
    AllPopulated (stackAt 8) ((stackAt 8).sp - 8) 8 ∧ AllPopulated (stackAt 0x10000) ((stackAt 0x10000).sp - 8) 8 := by
  unfold AllPopulated; decide

/-- A push whose fifth byte, and one whose first byte, is outside memory; a pop whose first byte is. -/
theorem test_met_StackAccessOutsideMemoryFaults :
    FirstUnpopulated (stackAt 0xFFFC) (stackAt 0xFFFC).sp 8 0x10000 ∧
    FirstUnpopulated (stackAt 0x10000) (stackAt 0x10000).sp 8 0x10000 ∧
    FirstUnpopulated (stackAt 4) ((stackAt 4).sp - 8) 8 0xFFFFFFFFFFFFFFFC :=
  ⟨⟨4, by unfold AllPopulated; decide⟩, ⟨0, by unfold AllPopulated; decide⟩, ⟨0, by unfold AllPopulated; decide⟩⟩

/-- The last byte of the slot, the last lane. -/
theorem test_met_LoadReadsBackAPushedByte :
    let s := { stackAt 0x8000 with regs := (two 0x8007 0).regs }
    7 < 8 ∧ AllPopulated s s.sp 8 ∧ s.reg 2 = s.sp + BitVec.ofNat 64 7 := by
  unfold AllPopulated; decide

/-- A store to the last byte of the word at 0x1000, and the word fetched there after it. -/
theorem test_met_StoredByteIsFetched :
    (two 0x1003 0).reg 2 = 0x1000 + BitVec.ofNat 64 3 ∧ (two 0x1003 0).platform.isPopulated ((two 0x1003 0).reg 2) = true ∧
    ∃ t, exec (.str 2 2 0) (two 0x1003 0) = .next t ∧ fetch { t with pc := 0x1000 } = .ok 0x03000000#32 :=
  ⟨by decide, by decide, _, rfl, by decide⟩

/-- For `OnlyTheDestinationRegisterChanges`, `OnlyComparesWriteFlags`, `OnlyPushAndPopWriteSp`,
`PcAdvancesByFourUnlessBranchOrFault` and `InstructionsCompleteOrWriteNothing`: an instruction that completes and writes `r1`. -/
theorem test_met_completes :
    ∃ t, exec (.add 1 2 3) (two 5 6) = .next t ∧ (Instr.add 1 2 3).effect ≠ .register 2 ∧
      (Instr.add 1 2 3).effect ≠ .pop 2 ∧ (Instr.add 1 2 3).effect ≠ .flags ∧ (Instr.add 1 2 3).effect ≠ .push ∧
      (Instr.add 1 2 3).effect ≠ .pc ∧ (two 5 6).status = .running ∧ t.status = .running :=
  ⟨_, rfl, by decide⟩

/-- The same effect is no `pop` of any register. -/
theorem test_met_OnlyPushAndPopWriteSp : ∀ a, (Instr.add 1 2 3).effect ≠ .pop a := by decide

/-- Beside the byte `str` stores, and beside the eight of `push`. -/
theorem test_met_OnlyStoresChangeMemory :
    (∃ t, exec (.str 1 2 0) (two 0x2000 0) = .next t) ∧
    (∀ addr n, (Instr.str 1 2 0).storedBytes (two 0x2000 0) = some (addr, n) → ∀ k < n, (0x2001 : Word) ≠ addr + BitVec.ofNat 64 k) ∧
    (∃ t, exec (.push 1) (stackAt 0x8000) = .next t) ∧
    (∀ addr n, (Instr.push 1).storedBytes (stackAt 0x8000) = some (addr, n) →
      ∀ k < n, (0x8008 : Word) ≠ addr + BitVec.ofNat 64 k) := by
  refine ⟨⟨_, rfl⟩, ?_, ⟨_, rfl⟩, ?_⟩ <;>
    (intro addr n h; obtain ⟨rfl, rfl⟩ := Prod.mk.inj (Option.some.inj h); decide)

/-- An instruction that faults: by its divisor, by its address. -/
theorem test_met_OnlyDivisionsAndMemoryInstructionsFault :
    (∃ t, exec (.div 1 2 3) (two 5 0) = .next t ∧ t.status = .faulted .divideByZero) ∧
    (∃ t, exec (.ldr 1 2 0) (two 0x10000 0) = .next t ∧ t.status = .faulted (.accessFault 0x10000)) :=
  ⟨⟨_, rfl, by decide⟩, ⟨_, rfl, by decide⟩⟩

/-- The first and the last word of memory. -/
theorem test_met_FetchReadsFourBytesLittleEndian :
    ((vec 0 0 []).pc.toNat % 4 = 0 ∧ AllPopulated (vec 0 0 []) (vec 0 0 []).pc 4) ∧
    ((vec 0xFFFC 0 []).pc.toNat % 4 = 0 ∧ AllPopulated (vec 0xFFFC 0 []) (vec 0xFFFC 0 []).pc 4) := by
  unfold AllPopulated; decide

theorem test_met_StepExecutesTheDecodedInstruction :
    let s := vec 0xFFFC 0x01123000 []
    s.status = .running ∧ s.platform.endPc ≠ some s.pc ∧ s.pc.toNat % 4 = 0 ∧ AllPopulated s s.pc 4 ∧
    decode (wordOfBytes (s.readByte s.pc) (s.readByte (s.pc + 1)) (s.readByte (s.pc + 2)) (s.readByte (s.pc + 3))) =
      .ok (.add 1 2 3) := by
  unfold AllPopulated; decide

theorem test_met_StepRunsThePlacedWord : decode 0x01123000#32 = .ok (.add 1 2 3) := by decide

/-- A misaligned `pc`; words whose first and whose third byte is outside memory; a word that names no instruction. -/
theorem test_met_FetchFaultsComeInOrder :
    (∀ s ∈ [vec 0x1001 0 [], vec 0x1003 0 [], vec 0x10000 0 [], vec 0x1000 0x23000000 []],
      s.status = .running ∧ s.platform.endPc ≠ some s.pc) ∧
    (vec 0x1001 0 []).pc.toNat % 4 ≠ 0 ∧ (vec 0x1003 0 []).pc.toNat % 4 ≠ 0 ∧
    ((vec 0x10000 0 []).pc.toNat % 4 = 0 ∧ FirstUnpopulated (vec 0x10000 0 []) (vec 0x10000 0 []).pc 4 0x10000) ∧
    (fetch (vec 0x1000 0x23000000 []) = .ok 0x23000000#32 ∧ decode 0x23000000#32 = .error .reservedOpcode) :=
  ⟨by decide, by decide, by decide, ⟨by decide, 0, by unfold AllPopulated; decide⟩, by decide⟩

/-- A machine whose memory ends in the middle of the word at 0x1000. -/
def halfWord : State := { vec 0x1000 0 [] with platform := { populated := [{ base := 0, size := 0x1002 }], endPc := none } }

theorem test_met_FetchFaultsComeInOrder_half :
    halfWord.status = .running ∧ halfWord.platform.endPc ≠ some halfWord.pc ∧ halfWord.pc.toNat % 4 = 0 ∧
    FirstUnpopulated halfWord halfWord.pc 4 0x1002 :=
  ⟨by decide, by decide, by decide, 2, by unfold AllPopulated; decide⟩

theorem test_met_FaultsArePrecise :
    ∃ t, step (vec 0x1002 0 []) = .next t ∧ t.status = .faulted (.misalignedFetch 0x1002) := ⟨_, rfl, by decide⟩

theorem test_met_FaultedMachineTakesNoStep :
    (State.faultedWith State.reset .divideByZero).status = .faulted .divideByZero := by decide

theorem test_met_NoRunGoesPastAFault :
    ∃ t, RunsTo (vec 0x1002 0 []) 1 t ∧ t.status = .faulted (.misalignedFetch 0x1002) := ⟨_, rfl, by decide⟩

theorem test_met_NoStepAtTheEndAddress :
    State.EndedNormally { vec 0x1000 0 [] with platform := { Config.resetPlatform with endPc := some 0x1000 } } := by
  unfold State.EndedNormally; decide

/-- A step that stores, from a state whose memory is in order. -/
theorem test_met_StepsKeepMemoryOk :
    State.MemoryOk (vec 0x1000 0x28100000 []) ∧ ∃ t, step (vec 0x1000 0x28100000 []) = .next t :=
  ⟨by unfold State.MemoryOk; decide, _, rfl⟩

/-- A compare, from a state with one flag. -/
theorem test_met_StepsKeepExactlyOneFlag :
    let s := { vec 0x1000 0x2A120000 [] with equal := false, smaller := false }
    s.OneFlag ∧ ∃ t, step s = .next t :=
  ⟨by unfold State.OneFlag; decide, _, rfl⟩

theorem test_met_StepsKeepThePlatform : ∃ t, step (vec 0x1000 0 []) = .next t := ⟨_, rfl⟩

end Sys2Proof.Tests
end

section
/-! PROOFS. Everything the execution of an instruction can do, said once for all 55, and the platform field over a step. -/

namespace Sys2Proof.Machine

/-! ### What executing an instruction can do

The states `exec i s` can answer, each built from `s` by the updates of `Sys2Proof/Machine/Ops.lean`, under the effect rule R21
and its companions give `i` and, for an access to memory, under what rule R42 asks of the addresses. -/

/-- `t` is a state that executing `i` in `s` can answer. -/
inductive ExecEffect (i : Instr) (s : State) : State → Prop where
  | nothing (effect : i.effect = .nothing) : ExecEffect i s s.advance
  | register (a : Reg) (v : Word) (effect : i.effect = .register a) : ExecEffect i s (s.setReg a v).advance
  | flags (p q : Int) (effect : i.effect = .flags) :
      ExecEffect i s (s.setFlags (decide (p > q)) (decide (p = q)) (decide (p < q))).advance
  | byte (addr v : Word) (effect : i.effect = .byte) (stored : i.storedBytes s = some (addr, 1))
      (populated : s.platform.isPopulated addr = true) : ExecEffect i s (s.setMem (s.mem.storeBytes addr v 1)).advance
  | push (v : Word) (effect : i.effect = .push) (stored : i.storedBytes s = some (s.sp, 8))
      (populated : AllPopulated s s.sp 8) :
      ExecEffect i s ((s.setMem (s.mem.storeBytes s.sp v 8)).setSp (s.sp + 8)).advance
  | pop (a : Reg) (v : Word) (effect : i.effect = .pop a) : ExecEffect i s ((s.setReg a v).setSp (s.sp - 8)).advance
  | pc (off : Word) (effect : i.effect = .pc) : ExecEffect i s (s.offsetPc off)
  | divideByZero : ExecEffect i s (s.faultedWith .divideByZero)
  | accessFault (addr : Word) (hole : s.platform.isPopulated addr = false) :
      ExecEffect i s (s.faultedWith (.accessFault addr))

namespace ExecEffect

variable {i : Instr} {s t : State} {a : Reg}

theorem of_writeResult {v : Word} (effect : i.effect = .register a) (h : s.writeResult a v = .next t) :
    ExecEffect i s t := by
  obtain rfl := State.writeResult_next h
  exact .register a v effect

theorem of_writeQuotient {d v : Word} (effect : i.effect = .register a) (h : s.writeQuotient a d v = .next t) :
    ExecEffect i s t := by
  obtain ⟨-, rfl⟩ | ⟨-, rfl⟩ := State.writeQuotient_next h
  · exact .divideByZero
  · exact .register a v effect

theorem of_loadLane {addr : Word} {lane : Nat} (effect : i.effect = .register a)
    (h : s.loadLane a addr lane = .next t) : ExecEffect i s t := by
  obtain ⟨-, rfl⟩ | ⟨hole, rfl⟩ := State.loadLane_next h
  · exact .register a _ effect
  · exact .accessFault addr hole

theorem of_storeLane {addr : Word} {lane : Nat} (effect : i.effect = .byte) (stored : i.storedBytes s = some (addr, 1))
    (h : s.storeLane a addr lane = .next t) : ExecEffect i s t := by
  obtain ⟨populated, rfl⟩ | ⟨hole, rfl⟩ := State.storeLane_next h
  · exact .byte addr _ effect stored populated
  · exact .accessFault addr hole

theorem of_pushWord {v : Word} (effect : i.effect = .push) (stored : i.storedBytes s = some (s.sp, 8))
    (h : s.pushWord v = .next t) : ExecEffect i s t := by
  obtain ⟨populated, rfl⟩ | ⟨addr, ⟨_, _, _, hole, _⟩, rfl⟩ := State.pushWord_next h
  · exact .push v effect stored populated
  · exact .accessFault addr hole

theorem of_popWord (effect : i.effect = .pop a) (h : s.popWord a = .next t) : ExecEffect i s t := by
  obtain ⟨-, rfl⟩ | ⟨addr, ⟨_, _, _, hole, _⟩, rfl⟩ := State.popWord_next h
  · exact .pop a _ effect
  · exact .accessFault addr hole

theorem of_compare {p q : Int} (effect : i.effect = .flags) (h : s.compare p q = .next t) : ExecEffect i s t := by
  obtain rfl := State.compare_next h
  exact .flags p q effect

theorem of_branch {taken : Bool} {off : Word} (effect : i.effect = .pc) (h : s.branch taken off = .next t) :
    ExecEffect i s t := by
  obtain rfl := State.branch_next h
  exact .pc _ effect

end ExecEffect

/-- Executing an instruction does nothing but what `ExecEffect` lists: each instruction is one call of a shared operation. -/
theorem exec_next {i : Instr} {s t : State} (h : exec i s = .next t) : ExecEffect i s t := by
  cases i with
  | nop =>
    cases h
    exact .nothing rfl
  | add | addI | sub | subI | subRi | mul | mulI | and | or | xor | not | nand | nor | xnor
  | rsh | rshI | lsh | lshI | ror | rol | mov | ldi => exact .of_writeResult rfl h
  | div | divI | divRi | sdiv | sdivI | sdivRi | mod | modI | modRi | smod | smodI | smodRi =>
    exact .of_writeQuotient rfl h
  | ldr | ldrI => exact .of_loadLane rfl h
  | str | strI => exact .of_storeLane rfl rfl h
  | push => exact .of_pushWord rfl rfl h
  | pop => exact .of_popWord rfl h
  | cmp | cmpI | cmpRi | scmp | scmpI | scmpRi => exact .of_compare rfl h
  | b | bI | bg | bgI | be | beI | bs | bsI => exact .of_branch rfl h

/-! ### The platform parameters (`00_scope.md` rule R8) -/

/-- No update an execution is built from writes the platform field. -/
theorem ExecEffect.platform_eq {i : Instr} {s t : State} (h : ExecEffect i s t) : t.platform = s.platform := by
  cases h with
  | nothing | register | flags | byte | push | pop | pc => simp
  | divideByZero | accessFault => exact s.faultedWith_platform _

/-- Settles O56: a step raises a fault of the fetch or decoding, or executes an instruction, and neither writes the field. -/
theorem stepsKeepThePlatform : Obligations.StepsKeepThePlatform := by
  intro s t h
  obtain ⟨-, -, ⟨f, -, rfl⟩ | ⟨i, -, hexec⟩⟩ := step_next h
  · exact s.faultedWith_platform f
  · exact (exec_next hexec).platform_eq

end Sys2Proof.Machine
end

section
/-! PROOFS. Which part of the state of `10_state.md` an instruction writes: the flags, the general registers, `sp` and `pc`. -/

namespace Sys2Proof.Machine

/-! ### The flags (rules R25, R26, `46_compare.md` rule R170) -/

/-- The order of the integers is total, so a comparison sets exactly one flag. -/
theorem State.setFlags_oneFlag (s : State) (p q : Int) :
    (s.setFlags (decide (p > q)) (decide (p = q)) (decide (p < q))).OneFlag := by
  obtain smaller | rfl | greater := lt_trichotomy p q
  · exact .inr (.inr (by simp [smaller, smaller.ne, smaller.le]))
  · exact .inr (.inl (by simp))
  · exact .inl (by simp [greater, greater.ne', greater.le])

/-- `OneFlag` speaks of the three flags alone. -/
theorem State.OneFlag.of_sameFlags {s t : State} (hs : s.OneFlag) (same : SameFlags s t) : t.OneFlag := by
  obtain ⟨greater, equal, smaller⟩ := same
  rwa [State.OneFlag, greater, equal, smaller]

theorem State.faultedWith_sameFlags (s : State) (f : Fault) : SameFlags s (s.faultedWith f) := by simp [SameFlags]

/-- An execution leaves the flags, or is a compare and sets them from two integers. -/
theorem ExecEffect.sameFlags_or_compares {i : Instr} {s t : State} (h : ExecEffect i s t) :
    SameFlags s t ∨
    i.effect = .flags ∧ ∃ p q : Int, t = (s.setFlags (decide (p > q)) (decide (p = q)) (decide (p < q))).advance := by
  cases h with
  | nothing | register | byte | push | pop | pc => exact .inl (by simp [SameFlags])
  | flags p q effect => exact .inr ⟨effect, p, q, rfl⟩
  | divideByZero | accessFault => exact .inl (s.faultedWith_sameFlags _)

theorem ExecEffect.oneFlag {i : Instr} {s t : State} (h : ExecEffect i s t) (hs : s.OneFlag) : t.OneFlag := by
  obtain same | ⟨-, p, q, rfl⟩ := h.sameFlags_or_compares
  · exact hs.of_sameFlags same
  · exact s.setFlags_oneFlag p q

/-- Settles O55: a fault of the fetch or decoding leaves the flags, and an execution leaves them or sets exactly one. -/
theorem stepsKeepExactlyOneFlag : Obligations.StepsKeepExactlyOneFlag := by
  intro s t hs h
  obtain ⟨-, -, ⟨f, -, rfl⟩ | ⟨i, -, hexec⟩⟩ := step_next h
  · exact hs.of_sameFlags (s.faultedWith_sameFlags f)
  · exact (exec_next hexec).oneFlag hs

/-- Settles O37: an execution that does not leave the flags is a compare's. -/
theorem onlyComparesWriteFlags : Obligations.OnlyComparesWriteFlags := by
  intro i s t h notCompare
  obtain same | ⟨compare, -⟩ := (exec_next h).sameFlags_or_compares
  · exact same
  · exact absurd compare notCompare

/-! ### The general registers (rule R21) -/

theorem ExecEffect.reg_eq {i : Instr} {s t : State} {r : Reg} (h : ExecEffect i s t) (notWritten : i.effect ≠ .register r)
    (notPopped : i.effect ≠ .pop r) : t.reg r = s.reg r := by
  cases h with
  | nothing | flags | byte | push | pc => simp
  | register a v effect =>
    have other : r ≠ a := fun e => notWritten (e ▸ effect)
    simp [State.setReg_reg_other, other]
  | pop a v effect =>
    have other : r ≠ a := fun e => notPopped (e ▸ effect)
    simp [State.setReg_reg_other, other]
  | divideByZero | accessFault => exact s.faultedWith_reg _ r

/-- Settles O36: the one register an execution writes is the destination rule R21 names. -/
theorem onlyTheDestinationRegisterChanges : Obligations.OnlyTheDestinationRegisterChanges :=
  fun _ _ _ _ h notWritten notPopped => (exec_next h).reg_eq notWritten notPopped

/-! ### The stack pointer (rule R27) -/

theorem ExecEffect.sp_eq {i : Instr} {s t : State} (h : ExecEffect i s t) (notPush : i.effect ≠ .push)
    (notPop : ∀ a, i.effect ≠ .pop a) : t.sp = s.sp := by
  cases h with
  | nothing | register | flags | byte | pc => simp
  | push v effect => exact absurd effect notPush
  | pop a v effect => exact absurd effect (notPop a)
  | divideByZero | accessFault => exact s.faultedWith_sp _

/-- Settles O38: of the updates an execution is built from, only those of `push` and `pop` write `sp`. -/
theorem onlyPushAndPopWriteSp : Obligations.OnlyPushAndPopWriteSp :=
  fun _ _ _ h notPush notPop => (exec_next h).sp_eq notPush notPop

/-! ### The instruction pointer (rules R23, R24, `60_exceptions.md` rule R207) -/

/-- An execution of no branch either keeps `status` and advances `pc` by 4, or raises a fault and keeps `pc`. -/
theorem ExecEffect.advances_or_faults {i : Instr} {s t : State} (h : ExecEffect i s t) (notBranch : i.effect ≠ .pc) :
    (t.status = s.status ∧ t.pc = s.pc + 4) ∨ ((∃ f, t.status = .faulted f) ∧ t.pc = s.pc) := by
  cases h with
  | nothing | register | flags | byte | push | pop => exact .inl (by simp)
  | pc off effect => exact absurd effect notBranch
  | divideByZero | accessFault => exact .inr (by simp)

/-- Settles O40: from a running machine, `status` after the execution tells the two cases of `advances_or_faults` apart. -/
theorem pcAdvancesByFourUnlessBranchOrFault : Obligations.PcAdvancesByFourUnlessBranchOrFault := by
  intro i s t h running notBranch
  obtain ⟨status, pc⟩ | ⟨⟨f, status⟩, pc⟩ := (exec_next h).advances_or_faults notBranch
  · rw [if_pos (status.trans running), pc]
  · rw [status, if_neg nofun, pc]

end Sys2Proof.Machine
end

section
/-! PROOFS. Memory (`20_memory.md`): its canonical form over a step, which bytes an execution changes, what byte accesses answer,
and that a fetch reads the bytes a store wrote. -/

namespace Sys2Proof.Machine

/-! ### The canonical form (rule R40, decision D6) -/

/-- `MemoryOk` speaks of memory and the platform field alone. -/
theorem State.MemoryOk.of_mem_eq {s t : State} (hs : s.MemoryOk) (mem : t.mem = s.mem) (platform : t.platform = s.platform) :
    t.MemoryOk := by
  rwa [State.MemoryOk, mem, platform]

/-- A store to populated addresses lists no other address than memory did and those it stores to. -/
theorem State.MemoryOk.setMem_storeBytes {s : State} {addr : Word} {n : Nat} (hs : s.MemoryOk) (v : Word)
    (populated : AllPopulated s addr n) : (s.setMem (s.mem.storeBytes addr v n)).MemoryOk := by
  obtain ⟨wf, listed⟩ := hs
  refine ⟨Memory.wf_storeBytes s.mem addr v n wf, fun c hc => ?_⟩
  obtain ⟨k, hk, stored⟩ | old := Memory.mem_storeBytes s.mem addr v n c hc
  · rw [stored, BitVec.ofNat_toNat, BitVec.setWidth_eq]
    exact populated k hk
  · exact listed c old

/-- An access of one byte asks for its address alone. -/
theorem allPopulated_one {s : State} {a : Word} : AllPopulated s a 1 ↔ s.platform.isPopulated a = true := by
  simp [AllPopulated]

/-- An execution leaves memory, or stores where rule R42 lets it. -/
theorem ExecEffect.memoryOk {i : Instr} {s t : State} (h : ExecEffect i s t) (hs : s.MemoryOk) : t.MemoryOk := by
  cases h with
  | nothing | register | flags | pop | pc | divideByZero | accessFault => exact hs.of_mem_eq rfl rfl
  | byte addr v _ _ populated =>
    exact (hs.setMem_storeBytes v (allPopulated_one.mpr populated)).of_mem_eq rfl rfl
  | push v _ _ populated => exact (hs.setMem_storeBytes v populated).of_mem_eq rfl rfl

/-- Settles O54: a fault of the fetch or decoding leaves memory, and an execution keeps it in order. -/
theorem stepsKeepMemoryOk : Obligations.StepsKeepMemoryOk := by
  intro s t hs h
  obtain ⟨-, -, ⟨f, -, rfl⟩ | ⟨i, -, hexec⟩⟩ := step_next h
  · exact hs.of_mem_eq (s.faultedWith_mem f) (s.faultedWith_platform f)
  · exact (exec_next hexec).memoryOk hs

/-- Settles O53: the memory of the reset state lists nothing. -/
theorem resetMemoryIsOk : Obligations.ResetMemoryIsOk :=
  have empty : State.reset.mem = [] := rfl
  ⟨by simp [Memory.wf, empty], by simp [empty]⟩

/-! ### Which bytes an execution changes (rules R41, R44) -/

theorem ExecEffect.readByte_eq {i : Instr} {s t : State} {x : Word} (h : ExecEffect i s t)
    (notStored : ∀ addr n, i.storedBytes s = some (addr, n) → ∀ k < n, x ≠ addr + BitVec.ofNat 64 k) :
    t.readByte x = s.readByte x := by
  cases h with
  | nothing | register | flags | pop | pc | divideByZero | accessFault => exact State.readByte_congr rfl x
  | byte addr v _ stored => exact s.readByte_notStored addr v x 1 (notStored addr 1 stored)
  | push v _ stored => exact s.readByte_notStored s.sp v x 8 (notStored s.sp 8 stored)

/-- Settles O39: the two updates of an execution that write memory write the bytes the instruction stores to. -/
theorem onlyStoresChangeMemory : Obligations.OnlyStoresChangeMemory :=
  fun _ _ _ _ h notStored => (exec_next h).readByte_eq notStored

/-! ### Loads and stores, by whether their addresses are populated (rules R42, R160 to R164) -/

theorem State.faultedWith_faultsWith (s : State) (f : Fault) : FaultsWith s (s.faultedWith f) f :=
  ⟨rfl, fun _ => rfl, s.faultedWith_sameFlags f, rfl, fun _ => rfl, rfl, rfl⟩

/-- The only byte of a one-byte access is its first hole when it is not populated. -/
theorem Platform.firstHole_one (p : Platform) {addr : Word} (hole : p.isPopulated addr = false) :
    p.firstHole addr 1 = some addr :=
  (p.firstHole_some addr addr 1).mpr ⟨0, by decide, by simp, hole, by simp⟩

theorem State.loadLane_hole {s : State} {addr : Word} (a : Reg) (lane : Nat) (hole : s.platform.isPopulated addr = false) :
    s.loadLane a addr lane = .next (s.faultedWith (.accessFault addr)) := by
  simp [State.loadLane, State.memRead, s.platform.firstHole_one hole, State.raise_eq]

theorem State.storeLane_hole {s : State} {addr : Word} (a : Reg) (lane : Nat) (hole : s.platform.isPopulated addr = false) :
    s.storeLane a addr lane = .next (s.faultedWith (.accessFault addr)) := by
  simp [State.storeLane, State.memWrite, s.platform.firstHole_one hole, State.raise_eq]

theorem State.loadLane_populated {s : State} {addr : Word} (a : Reg) (lane : Nat)
    (populated : s.platform.isPopulated addr = true) :
    s.loadLane a addr lane = .next (s.setReg a (placeByte (s.readByte addr) lane)).advance := by
  have loaded : byteLane (s.loadBytes addr 1) 0 = s.readByte addr := by simp [s.byteLane_loadBytes addr 1 0]
  simp [State.loadLane, s.memRead_populated addr 1 (allPopulated_one.mpr populated), State.writeResult, loaded]

theorem State.storeLane_populated {s : State} {addr : Word} (a : Reg) (lane : Nat)
    (populated : s.platform.isPopulated addr = true) :
    s.storeLane a addr lane =
      .next (s.setMem (s.mem.storeBytes addr ((byteLane (s.reg a) lane).setWidth 64) 1)).advance := by
  simp [State.storeLane, s.memWrite_populated addr _ 1 (allPopulated_one.mpr populated)]

theorem State.pushWord_populated {s : State} (v : Word) (populated : AllPopulated s s.sp 8) :
    s.pushWord v = .next ((s.setMem (s.mem.storeBytes s.sp v 8)).setSp (s.sp + 8)).advance := by
  simp [State.pushWord, s.memWrite_populated s.sp v 8 populated, stackSlot]

/-- The low byte of what a lane store writes is the lane it took. -/
theorem byteLane_setWidth_zero (b : Byte) : byteLane (b.setWidth 64) 0 = b := by
  apply BitVec.eq_of_getLsbD_eq
  intro i hi
  have inWord : i < 64 := by omega
  simp [byteLane, hi, inWord]

/-- A stored lane reads back at its address. -/
theorem State.readByte_storedLane (s : State) (addr : Word) (b : Byte) :
    (s.setMem (s.mem.storeBytes addr (b.setWidth 64) 1)).readByte addr = b := by
  have stored := s.readByte_stored addr (b.setWidth 64) 1 0 (by decide) (by decide)
  rwa [byteLane_setWidth_zero, BitVec.add_zero] at stored

/-- Settles O25: each of the four is one call of `loadLane` or `storeLane` at the unpopulated address. -/
theorem byteAccessOutsideMemoryFaults : Obligations.ByteAccessOutsideMemoryFaults := by
  intro a b lane imm s
  refine ⟨fun hole => ⟨?ldr, ?str⟩, fun hole => ⟨?ldrI, ?strI⟩⟩
  case ldr | ldrI => exact ⟨_, State.loadLane_hole a lane hole, s.faultedWith_faultsWith _⟩
  case str | strI => exact ⟨_, State.storeLane_hole a lane hole, s.faultedWith_faultsWith _⟩

/-- Settles O30: `push` leaves registers and platform, so `ldr` reads byte `k` of the slot, which holds byte `k` of `x`. -/
theorem loadReadsBackAPushedByte : Obligations.LoadReadsBackAPushedByte := by
  intro x a b lane k s hlane hk populated address
  refine ⟨_, State.pushWord_populated (s.reg x) populated, ?_⟩
  have readable : s.platform.isPopulated (s.reg b) = true := address ▸ populated k hk
  refine ⟨_, State.loadLane_populated a lane readable, ?_⟩
  have pushed := s.readByte_stored s.sp (s.reg x) 8 k hk (by decide)
  simpa [byteLane_placeByte _ _ _ hlane, address] using pushed

/-! ### The fetch reads memory (rules R45, R54, R56) -/

/-- The low 32 bits of a word keep its four low bytes. -/
theorem byteOfWord_setWidth (v : Word) {k : Nat} (hk : k < 4) : byteOfWord (v.setWidth 32) k = byteLane v k := by
  apply BitVec.eq_of_getLsbD_eq
  intro i hi
  have inWord : 8 * k + i < 32 := by omega
  simp [byteOfWord, byteLane, hi, inWord]

/-- The bytes of a fetched word are those at `pc` and the three addresses after it, little-endian. -/
theorem byteOfWord_fetch {s : State} {w : InstrWord} {k : Nat} (fetched : fetch s = .ok w) (hk : k < 4) :
    byteOfWord w k = s.readByte (s.pc + BitVec.ofNat 64 k) := by
  obtain ⟨-, e⟩ | ⟨-, _, -, e⟩ | ⟨-, -, e⟩ := fetch_cases s
  · cases e.symm.trans fetched
  · cases e.symm.trans fetched
  · cases e.symm.trans fetched
    rw [byteOfWord_setWidth _ hk, s.byteLane_loadBytes s.pc 4 k (by omega), if_pos hk]

/-- Settles O43: an aligned fetch of populated bytes answers a word, and its bytes are those of `byteOfWord_fetch`. -/
theorem fetchReadsFourBytesLittleEndian : Obligations.FetchReadsFourBytesLittleEndian := by
  intro s aligned populated
  have fetched : fetch s = .ok ((s.loadBytes s.pc 4).setWidth 32) := by
    simp [fetch, aligned, s.memRead_populated s.pc 4 populated]
  exact ⟨_, fetched, fun _ hk => byteOfWord_fetch fetched hk⟩

/-- Settles O31: byte `k` of the word is read at the stored address, and the fetch depends on memory alone. -/
theorem storedByteIsFetched : Obligations.StoredByteIsFetched := by
  intro a b lane k s w pc hk address populated
  refine ⟨_, State.storeLane_populated a lane populated, fun fetched => ?_⟩
  calc byteOfWord w k
      = (s.setMem _).readByte (pc + BitVec.ofNat 64 k) := byteOfWord_fetch fetched hk
    _ = (s.setMem _).readByte (s.reg b) := congrArg (State.readByte _) address.symm
    _ = byteLane (s.reg a) lane := s.readByte_storedLane (s.reg b) _

end Sys2Proof.Machine
end

section
/-! PROOFS. Decoding and encoding (`30_encoding.md`): a word is the packing of its fields, the decoder reads a word by the row
that has the word's opcode, and a word whose opcode has no row is reserved. -/

namespace Sys2Proof

/-! ### A word is made of its fields (rules R61, R63)

In every format the fields are the bits the mask leaves free. So packing a word's fields takes from the word all that the mask
does not fix. -/

/-- A field put back at its place is the word under the mask of that place. -/
theorem putField_extract (w : InstrWord) (lo n : Nat) :
    putField (w.extractLsb' lo n) lo = w &&& putField (BitVec.allOnes n) lo := by
  apply BitVec.eq_of_getLsbD_eq
  intro i hi
  rw [BitVec.getLsbD_and, getLsbD_putField, getLsbD_putField, BitVec.getLsbD_extractLsb', BitVec.getLsbD_allOnes]
  by_cases h : lo ≤ i
  · simp [hi, h, Bool.and_comm]
  · simp [h]

theorem putField_fieldA (w : InstrWord) : putField (regBits (fieldA w)) 20 = w &&& 0x00F00000#32 := putField_extract w 20 4

theorem putField_fieldB (w : InstrWord) : putField (regBits (fieldB w)) 16 = w &&& 0x000F0000#32 := putField_extract w 16 4

theorem putField_fieldC (w : InstrWord) : putField (regBits (fieldC w)) 12 = w &&& 0x0000F000#32 := putField_extract w 12 4

theorem putField_fieldImm16 (w : InstrWord) : putField (fieldImm16 w) 0 = w &&& 0x0000FFFF#32 := putField_extract w 0 16

theorem putField_fieldImm8 (w : InstrWord) : putField (fieldImm8 w) 0 = w &&& 0x000000FF#32 := putField_extract w 0 8

theorem putField_fieldChunk (w : InstrWord) : putField (BitVec.ofNat 2 (fieldChunk w)) 16 = w &&& 0x00030000#32 := by
  rw [fieldChunk, BitVec.ofNat_toNat, BitVec.setWidth_eq]
  exact putField_extract w 16 2

theorem putField_fieldLaneMR (w : InstrWord) : putField (BitVec.ofNat 3 (fieldLaneMR w)) 0 = w &&& 0x00000007#32 := by
  rw [fieldLaneMR, BitVec.ofNat_toNat, BitVec.setWidth_eq]
  exact putField_extract w 0 3

theorem putField_fieldLaneMI (w : InstrWord) : putField (BitVec.ofNat 3 (fieldLaneMI w)) 16 = w &&& 0x00070000#32 := by
  rw [fieldLaneMI, BitVec.ofNat_toNat, BitVec.setWidth_eq]
  exact putField_extract w 16 3

section
variable (op : BitVec 8) (w : InstrWord)

theorem packZ_fields : packZ op = putField op 24 ||| (w &&& ~~~Format.z.mask) := by
  rw [show ~~~Format.z.mask = 0#32 from rfl, BitVec.and_zero, BitVec.or_zero, packZ]

theorem packRrr_fields : packRrr op (fieldA w) (fieldB w) (fieldC w) = putField op 24 ||| (w &&& ~~~Format.rrr.mask) := by
  simp only [packRrr, putField_fieldA, putField_fieldB, putField_fieldC, BitVec.or_assoc, ← BitVec.and_or_distrib_left]
  rfl

theorem packRri_fields : packRri op (fieldA w) (fieldB w) (fieldImm16 w) = putField op 24 ||| (w &&& ~~~Format.rri.mask) := by
  simp only [packRri, putField_fieldA, putField_fieldB, putField_fieldImm16, BitVec.or_assoc, ← BitVec.and_or_distrib_left]
  rfl

theorem packRr_fields : packRr op (fieldA w) (fieldB w) = putField op 24 ||| (w &&& ~~~Format.rr.mask) := by
  simp only [packRr, putField_fieldA, putField_fieldB, BitVec.or_assoc, ← BitVec.and_or_distrib_left]
  rfl

theorem packRri8_fields :
    packRri8 op (fieldA w) (fieldB w) (fieldImm8 w) = putField op 24 ||| (w &&& ~~~Format.rri8.mask) := by
  simp only [packRri8, putField_fieldA, putField_fieldB, putField_fieldImm8, BitVec.or_assoc, ← BitVec.and_or_distrib_left]
  rfl

theorem packR_fields : packR op (fieldA w) = putField op 24 ||| (w &&& ~~~Format.r.mask) := by
  rw [packR, putField_fieldA]
  rfl

theorem packRi_fields : packRi op (fieldA w) (fieldImm16 w) = putField op 24 ||| (w &&& ~~~Format.ri.mask) := by
  simp only [packRi, putField_fieldA, putField_fieldImm16, BitVec.or_assoc, ← BitVec.and_or_distrib_left]
  rfl

theorem packI_fields : packI op (fieldImm16 w) = putField op 24 ||| (w &&& ~~~Format.i.mask) := by
  rw [packI, putField_fieldImm16]
  rfl

theorem packLdi_fields :
    packLdi op (fieldA w) (fieldChunk w) (fieldImm16 w) = putField op 24 ||| (w &&& ~~~Format.ldi.mask) := by
  simp only [packLdi, putField_fieldA, putField_fieldChunk, putField_fieldImm16, BitVec.or_assoc, ← BitVec.and_or_distrib_left]
  rfl

theorem packMr_fields : packMr op (fieldA w) (fieldB w) (fieldLaneMR w) = putField op 24 ||| (w &&& ~~~Format.mr.mask) := by
  simp only [packMr, putField_fieldA, putField_fieldB, putField_fieldLaneMR, BitVec.or_assoc, ← BitVec.and_or_distrib_left]
  rfl

theorem packMi_fields :
    packMi op (fieldA w) (fieldLaneMI w) (fieldImm16 w) = putField op 24 ||| (w &&& ~~~Format.mi.mask) := by
  simp only [packMi, putField_fieldA, putField_fieldLaneMI, putField_fieldImm16, BitVec.or_assoc, ← BitVec.and_or_distrib_left]
  rfl

end

/-! ### Reading a word by a row of the opcode map (rules R62, R76) -/

/-- The instruction of `i`'s row whose operands are the fields of `w`. -/
def Instr.withFieldsOf (w : InstrWord) : Instr → Instr
  | .nop => .nop
  | .add .. => .add (fieldA w) (fieldB w) (fieldC w)
  | .addI .. => .addI (fieldA w) (fieldB w) (fieldImm16 w)
  | .sub .. => .sub (fieldA w) (fieldB w) (fieldC w)
  | .subI .. => .subI (fieldA w) (fieldB w) (fieldImm16 w)
  | .subRi .. => .subRi (fieldA w) (fieldB w) (fieldImm16 w)
  | .mul .. => .mul (fieldA w) (fieldB w) (fieldC w)
  | .mulI .. => .mulI (fieldA w) (fieldB w) (fieldImm16 w)
  | .div .. => .div (fieldA w) (fieldB w) (fieldC w)
  | .divI .. => .divI (fieldA w) (fieldB w) (fieldImm16 w)
  | .divRi .. => .divRi (fieldA w) (fieldB w) (fieldImm16 w)
  | .sdiv .. => .sdiv (fieldA w) (fieldB w) (fieldC w)
  | .sdivI .. => .sdivI (fieldA w) (fieldB w) (fieldImm16 w)
  | .sdivRi .. => .sdivRi (fieldA w) (fieldB w) (fieldImm16 w)
  | .and .. => .and (fieldA w) (fieldB w) (fieldC w)
  | .or .. => .or (fieldA w) (fieldB w) (fieldC w)
  | .xor .. => .xor (fieldA w) (fieldB w) (fieldC w)
  | .not .. => .not (fieldA w)
  | .nand .. => .nand (fieldA w) (fieldB w) (fieldC w)
  | .nor .. => .nor (fieldA w) (fieldB w) (fieldC w)
  | .xnor .. => .xnor (fieldA w) (fieldB w) (fieldC w)
  | .mod .. => .mod (fieldA w) (fieldB w) (fieldC w)
  | .modI .. => .modI (fieldA w) (fieldB w) (fieldImm16 w)
  | .modRi .. => .modRi (fieldA w) (fieldB w) (fieldImm16 w)
  | .smod .. => .smod (fieldA w) (fieldB w) (fieldC w)
  | .smodI .. => .smodI (fieldA w) (fieldB w) (fieldImm16 w)
  | .smodRi .. => .smodRi (fieldA w) (fieldB w) (fieldImm16 w)
  | .rsh .. => .rsh (fieldA w) (fieldB w) (fieldC w)
  | .rshI .. => .rshI (fieldA w) (fieldB w) (fieldImm8 w)
  | .lsh .. => .lsh (fieldA w) (fieldB w) (fieldC w)
  | .lshI .. => .lshI (fieldA w) (fieldB w) (fieldImm8 w)
  | .ror .. => .ror (fieldA w) (fieldB w)
  | .rol .. => .rol (fieldA w) (fieldB w)
  | .mov .. => .mov (fieldA w) (fieldB w)
  | .ldi .. => .ldi (fieldA w) (fieldChunk w) (fieldImm16 w)
  | .ldr .. => .ldr (fieldA w) (fieldB w) (fieldLaneMR w)
  | .ldrI .. => .ldrI (fieldA w) (fieldLaneMI w) (fieldImm16 w)
  | .str .. => .str (fieldA w) (fieldB w) (fieldLaneMR w)
  | .strI .. => .strI (fieldA w) (fieldLaneMI w) (fieldImm16 w)
  | .push .. => .push (fieldA w)
  | .pop .. => .pop (fieldA w)
  | .cmp .. => .cmp (fieldA w) (fieldB w)
  | .cmpI .. => .cmpI (fieldA w) (fieldImm16 w)
  | .cmpRi .. => .cmpRi (fieldA w) (fieldImm16 w)
  | .scmp .. => .scmp (fieldA w) (fieldB w)
  | .scmpI .. => .scmpI (fieldA w) (fieldImm16 w)
  | .scmpRi .. => .scmpRi (fieldA w) (fieldImm16 w)
  | .b .. => .b (fieldA w)
  | .bI .. => .bI (fieldImm16 w)
  | .bg .. => .bg (fieldA w)
  | .bgI .. => .bgI (fieldImm16 w)
  | .be .. => .be (fieldA w)
  | .beI .. => .beI (fieldImm16 w)
  | .bs .. => .bs (fieldA w)
  | .bsI .. => .bsI (fieldImm16 w)

@[simp] theorem Instr.withFieldsOf_format (w : InstrWord) (i : Instr) : (i.withFieldsOf w).format = i.format := by
  cases i <;> rfl

/-- A field of two bits is a chunk, a field of three bits a lane (rule R75). -/
theorem Instr.withFieldsOf_wellFormed (w : InstrWord) (i : Instr) : (i.withFieldsOf w).wellFormed = true := by
  cases i with
  | ldi => exact decide_eq_true (w.extractLsb' 16 2).isLt
  | ldr | str => exact decide_eq_true (w.extractLsb' 0 3).isLt
  | ldrI | strI => exact decide_eq_true (w.extractLsb' 16 3).isLt
  | _ => rfl

/-- The word of an instruction holds its operands, each in its field. -/
theorem Instr.withFieldsOf_encode {i : Instr} (wf : i.wellFormed = true) : i.withFieldsOf (encode i) = i := by
  cases i with
  | ldi a chunk imm =>
    have inRange : chunk < 4 := of_decide_eq_true wf
    simp [withFieldsOf, encode, inRange]
  | ldr a b lane | str a b lane =>
    have inRange : lane < 8 := of_decide_eq_true wf
    simp [withFieldsOf, encode, inRange]
  | ldrI a lane imm | strI a lane imm =>
    have inRange : lane < 8 := of_decide_eq_true wf
    simp [withFieldsOf, encode, inRange]
  | _ => simp [withFieldsOf, encode]

/-- An instruction's word has the fixed bits of its format. -/
theorem encode_fixed (i : Instr) : Laws.EncodedFixedBits.Statement i := by
  cases i with
  | nop => exact packZ_fixed _
  | add | sub | mul | div | sdiv | and | or | xor | nand | nor | xnor | mod | smod | rsh | lsh => exact packRrr_fixed ..
  | addI | subI | subRi | mulI | divI | divRi | sdivI | sdivRi | modI | modRi | smodI | smodRi => exact packRri_fixed ..
  | not | push | pop | b | bg | be | bs => exact packR_fixed ..
  | rshI | lshI => exact packRri8_fixed ..
  | ror | rol | mov | cmp | scmp => exact packRr_fixed ..
  | ldi => exact packLdi_fixed ..
  | ldr | str => exact packMr_fixed ..
  | ldrI | strI => exact packMi_fixed ..
  | cmpI | cmpRi | scmpI | scmpRi => exact packRi_fixed ..
  | bI | bgI | beI | bsI => exact packI_fixed ..

/-- Encoding the fields of `w` by `i`'s row: the row's opcode, and `w` where the row's format fixes nothing. -/
theorem encode_withFieldsOf (w : InstrWord) (i : Instr) :
    encode (i.withFieldsOf w) = putField (fieldOpcode (encode i)) 24 ||| (w &&& ~~~i.format.mask) := by
  cases i with
  | nop => exact packZ_fields _ w
  | add | sub | mul | div | sdiv | and | or | xor | nand | nor | xnor | mod | smod | rsh | lsh =>
    rw [encode, packRrr_opcode]; exact packRrr_fields _ w
  | addI | subI | subRi | mulI | divI | divRi | sdivI | sdivRi | modI | modRi | smodI | smodRi =>
    rw [encode, packRri_opcode]; exact packRri_fields _ w
  | not | push | pop | b | bg | be | bs => rw [encode, packR_opcode]; exact packR_fields _ w
  | rshI | lshI => rw [encode, packRri8_opcode]; exact packRri8_fields _ w
  | ror | rol | mov | cmp | scmp => rw [encode, packRr_opcode]; exact packRr_fields _ w
  | ldi => rw [encode, packLdi_opcode]; exact packLdi_fields _ w
  | ldr | str => rw [encode, packMr_opcode]; exact packMr_fields _ w
  | ldrI | strI => rw [encode, packMi_opcode]; exact packMi_fields _ w
  | cmpI | cmpRi | scmpI | scmpRi => rw [encode, packRi_opcode]; exact packRi_fields _ w
  | bI | bgI | beI | bsI => rw [encode, packI_opcode]; exact packI_fields _ w

/-- A word with the opcode of `i`'s row and 0 in the row's must-be-zero bits is the word of the instruction it holds. -/
theorem encode_withFieldsOf_of_fixed {w : InstrWord} {i : Instr} (opcode : fieldOpcode w = fieldOpcode (encode i))
    (fixed : w &&& i.format.mask = putField (fieldOpcode w) 24) : encode (i.withFieldsOf w) = w := by
  rw [encode_withFieldsOf, ← opcode, ← fixed, ← BitVec.and_or_distrib_left, BitVec.or_not_self, BitVec.and_allOnes]

/-- Decoding a word that has the opcode of a row: the check of the row's format, then the row's instruction with the fields. -/
theorem decode_of_opcode {w : InstrWord} {i : Instr} (opcode : fieldOpcode w = fieldOpcode (encode i)) :
    decode w = checkFixed i.format w (i.withFieldsOf w) := by
  rw [decode, opcode]
  cases i with
  | nop => rfl
  | add | sub | mul | div | sdiv | and | or | xor | nand | nor | xnor | mod | smod | rsh | lsh =>
    rw [encode, packRrr_opcode]; rfl
  | addI | subI | subRi | mulI | divI | divRi | sdivI | sdivRi | modI | modRi | smodI | smodRi =>
    rw [encode, packRri_opcode]; rfl
  | not | push | pop | b | bg | be | bs => rw [encode, packR_opcode]; rfl
  | rshI | lshI => rw [encode, packRri8_opcode]; rfl
  | ror | rol | mov | cmp | scmp => rw [encode, packRr_opcode]; rfl
  | ldi => rw [encode, packLdi_opcode]; rfl
  | ldr | str => rw [encode, packMr_opcode]; rfl
  | ldrI | strI => rw [encode, packMi_opcode]; rfl
  | cmpI | cmpRi | scmpI | scmpRi => rw [encode, packRi_opcode]; rfl
  | bI | bgI | beI | bsI => rw [encode, packI_opcode]; rfl

/-- Every opcode is that of an instruction's row or reserved: each branch of the decoder but the last reads a row. -/
theorem opcode_of_row_or_reserved (w : InstrWord) :
    (∃ i, fieldOpcode w = fieldOpcode (encode i)) ∨ decode w = .error .reservedOpcode := by
  suffices (∃ f i, decode w = checkFixed f w i ∧ (fieldOpcode w).toNat = (fieldOpcode (encode i)).toNat) ∨
      decode w = .error .reservedOpcode from
    this.imp_left fun ⟨_, i, _, opcode⟩ => ⟨i, BitVec.eq_of_toNat_eq opcode⟩
  unfold decode
  split
  on_goal -1 => exact .inr rfl
  all_goals exact .inl ⟨_, _, rfl, by simp [encode, *]⟩

/-- Rule R78: no row has opcode 0x23 or an opcode of 0x38 or more. -/
theorem fieldOpcode_encode_not_reserved (i : Instr) :
    ¬ (fieldOpcode (encode i) = 0x23#8 ∨ 0x38 ≤ (fieldOpcode (encode i)).toNat) := by
  cases i <;> simp [encode]

/-! ### The obligations -/

/-- Settles O1: the word of `i` has the opcode and the fixed bits of `i`'s row, and its fields are `i`'s operands. -/
theorem decodeOfEncodeIsTheInstruction : Obligations.DecodeOfEncodeIsTheInstruction := by
  intro i wf
  rw [decode_of_opcode rfl, checkFixed_ok]
  exact ⟨encode_fixed i, Instr.withFieldsOf_encode wf⟩

/-- Settles O2: a word that decodes has the opcode of a row and passes its check, so it is the packing of its fields. -/
theorem encodeOfDecodedIsTheWord : Obligations.EncodeOfDecodedIsTheWord := by
  intro w j decoded
  obtain ⟨i, opcode⟩ | reserved := opcode_of_row_or_reserved w
  · rw [decode_of_opcode opcode, checkFixed_ok] at decoded
    obtain ⟨fixed, rfl⟩ := decoded
    exact ⟨encode_withFieldsOf_of_fixed opcode fixed, i.withFieldsOf_wellFormed w⟩
  · cases reserved.symm.trans decoded

/-- Settles O3: the opcode is that of no row. -/
theorem reservedOpcodesAreRejected : Obligations.ReservedOpcodesAreRejected := by
  intro w opcodeReserved
  obtain ⟨i, opcode⟩ | reserved := opcode_of_row_or_reserved w
  · rw [opcode] at opcodeReserved
    exact absurd opcodeReserved (fieldOpcode_encode_not_reserved i)
  · exact reserved

/-- Settles O4: the opcode selects `i`'s row, and the check of its format decides. -/
theorem definedOpcodesDecodeUnlessAFixedBitIsSet : Obligations.DefinedOpcodesDecodeUnlessAFixedBitIsSet := by
  intro w i opcode
  rw [decode_of_opcode opcode]
  constructor
  · intro fixed
    refine ⟨i.withFieldsOf w, (checkFixed_ok ..).2 ⟨fixed, rfl⟩, ?_, i.withFieldsOf_format w⟩
    rw [encode_withFieldsOf_of_fixed opcode fixed]
  · intro notFixed
    exact if_neg notFixed

end Sys2Proof
end

section
/-! PROOFS. `nop`, integer arithmetic and the divisor 0 (`40_nop_arithmetic.md`, `42_modulo.md`), and that an execution either
leaves `status` or is a precise fault. -/

namespace Sys2Proof.Machine

/-! ### Completing with one of the shared effects (rules R100, R101, R118) -/

theorem State.advance_advancesOnly (s : State) : AdvancesOnly s s.advance := by
  simp [AdvancesOnly, SameFlags, SameMemory, SameRunning]

theorem State.setReg_advance_writesOnly (s : State) (a : Reg) (v : Word) : WritesOnly s (s.setReg a v).advance a v := by
  have others : SameRegsExcept s (s.setReg a v).advance [a] := fun r notDestination =>
    s.setReg_reg_other a r v (List.ne_of_not_mem_cons notDestination)
  simp [WritesOnly, others, SameFlags, SameMemory, SameRunning]

theorem State.writeQuotient_zero (s : State) (a : Reg) (v : Word) :
    s.writeQuotient a 0 v = .next (s.faultedWith .divideByZero) := if_pos rfl

theorem State.writeQuotient_ne_zero {s : State} {d : Word} (a : Reg) (v : Word) (nonzero : d ≠ 0) :
    s.writeQuotient a d v = .next (s.setReg a v).advance := if_neg nonzero

section
variable {i : Instr} {s : State} {a : Reg} {d v w : Word}

/-- An instruction that is one `writeResult` writes that value, under any name of it. -/
theorem completes_of_writeResult (h : exec i s = s.writeResult a v) (value : v = w) :
    Completes i s (fun t => WritesOnly s t a w) :=
  ⟨_, h, value ▸ s.setReg_advance_writesOnly a v⟩

/-- An instruction that is one `writeQuotient` by a divisor other than 0 writes a value with whatever property `v` has. -/
theorem completes_of_writeQuotient {P : Word → Prop} (h : exec i s = s.writeQuotient a d v) (nonzero : d ≠ 0)
    (value : P v) : Completes i s (fun t => ∃ q, WritesOnly s t a q ∧ P q) :=
  ⟨_, h.trans (State.writeQuotient_ne_zero a v nonzero), v, s.setReg_advance_writesOnly a v, value⟩

theorem faults_of_writeQuotient (h : exec i s = s.writeQuotient a d v) (zero : d = 0) :
    Completes i s (fun t => FaultsWith s t .divideByZero) := by
  subst zero
  exact ⟨_, h.trans (s.writeQuotient_zero a v), s.faultedWith_faultsWith _⟩

end

/-! ### Extended immediates (`30_encoding.md` rules R71, R72) -/

@[simp] theorem zext16_toNat (imm : Imm16) : (zext16 imm).toNat = imm.toNat := BitVec.toNat_setWidth_of_le (by decide)

@[simp] theorem sext16_toInt (imm : Imm16) : (sext16 imm).toInt = imm.toInt := BitVec.toInt_signExtend_of_le (by decide)

theorem zext16_eq_zero {imm : Imm16} : zext16 imm = 0 ↔ imm = 0 := by
  rw [← BitVec.toNat_inj, zext16_toNat, ← BitVec.toNat_inj]
  rfl

theorem sext16_eq_zero {imm : Imm16} : sext16 imm = 0 ↔ imm = 0 := by
  rw [← BitVec.toInt_inj, sext16_toInt, ← BitVec.toInt_inj]
  rfl

/-! ### The operations as integer arithmetic (rules R115 to R117, R119, R136, R137) -/

theorem addWords_eq_ofNat (p q : Word) : addWords p q = BitVec.ofNat 64 (p.toNat + q.toNat) := by
  simp [addWords, BitVec.ofNat_add]

theorem mulWords_eq_ofNat (p q : Word) : mulWords p q = BitVec.ofNat 64 (p.toNat * q.toNat) := by
  simp [mulWords, BitVec.ofNat_mul]

/-- The integer difference can be negative; adding the subtrahend back to its low 64 bits gives the minuend. -/
theorem subWords_eq_ofInt (p q : Word) : subWords p q = BitVec.ofInt 64 (p.toNat - q.toNat) := by
  have ofToNat (x : Word) : BitVec.ofInt 64 x.toNat = x := by simp
  refine sub_eq_of_eq_add ?_
  calc p = BitVec.ofInt 64 (p.toNat - q.toNat + q.toNat) := by rw [Int.sub_add_cancel, ofToNat]
    _ = BitVec.ofInt 64 (p.toNat - q.toNat) + q := by rw [BitVec.ofInt_add, ofToNat]

/-- A quotient of naturals is no larger than the dividend, so it fits. -/
theorem divUnsigned_toNat (n d : Word) : (divUnsigned n d).toNat = n.toNat / d.toNat :=
  Nat.mod_eq_of_lt ((Nat.div_le_self ..).trans_lt n.isLt)

/-- A remainder of naturals is no larger than the dividend, so it fits. -/
theorem modUnsigned_toNat (n d : Word) : (modUnsigned n d).toNat = n.toNat % d.toNat :=
  Nat.mod_eq_of_lt ((Nat.mod_le ..).trans_lt n.isLt)

/-- Rounding toward zero: the quotient of the magnitudes, negative when the signs differ. -/
theorem tdiv_eq_natAbs_div (n d : Int) :
    n.tdiv d = if (n < 0 ↔ d < 0) then ((n.natAbs / d.natAbs : Nat) : Int) else -((n.natAbs / d.natAbs : Nat) : Int) := by
  have nonneg (m : Nat) : ¬ Int.ofNat m < 0 := (Int.natCast_nonneg m).not_gt
  have neg (m : Nat) : Int.negSucc m < 0 := Int.negSucc_lt_zero m
  cases n with
  | ofNat m =>
    cases d with
    | ofNat k => exact (if_pos (iff_of_false (nonneg m) (nonneg k))).symm
    | negSucc k => exact (if_neg fun same => nonneg m (same.mpr (neg k))).symm
  | negSucc m =>
    cases d with
    | ofNat k => exact (if_neg fun same => nonneg k (same.mp (neg m))).symm
    | negSucc k => exact (if_pos (iff_of_true (neg m) (neg k))).symm

/-- The model's signed quotient is the library's, which also wraps modulo 2^64. -/
theorem divSigned_eq_sdiv (n d : Word) : divSigned n d = n.sdiv d :=
  BitVec.eq_of_toInt_eq (by rw [divSigned, BitVec.toInt_ofInt, BitVec.toInt_sdiv])

theorem divSigned_signedQuotient (n d : Word) : SignedQuotient n.toInt d.toInt (divSigned n d) := by
  unfold SignedQuotient
  split
  case isTrue overflow =>
    obtain ⟨least, minusOne⟩ := overflow
    rw [divSigned, least, minusOne]
    decide
  case isFalse fits =>
    have unwrapped : (divSigned n d).toInt = n.toInt.tdiv d.toInt := by
      rw [divSigned_eq_sdiv]
      refine BitVec.toInt_sdiv_of_ne_or_ne n d (not_and_or.mp fun ⟨least, minusOne⟩ => fits ?_)
      exact ⟨least ▸ rfl, minusOne ▸ rfl⟩
    rw [unwrapped, tdiv_eq_natAbs_div]
    split <;> rfl

/-- The low 64 bits respect sums and products, so the division identity of the integers holds of them. -/
theorem divSigned_mul_add_modSigned (n d : Word) : n = d * divSigned n d + modSigned n d := by
  calc n = BitVec.ofInt 64 (d.toInt * n.toInt.tdiv d.toInt + (n.toInt - d.toInt * n.toInt.tdiv d.toInt)) := by
        rw [add_sub_cancel, BitVec.ofInt_toInt]
    _ = d * divSigned n d + modSigned n d := by
        rw [BitVec.ofInt_add, BitVec.ofInt_mul, BitVec.ofInt_toInt, divSigned, modSigned]

/-- A division and a modulo of the same unsigned operands answer the quotient and the remainder of one division. -/
theorem unsignedDivision_completes {i j : Instr} {s : State} {a : Reg} {n d : Word}
    (division : exec i s = s.writeQuotient a d (divUnsigned n d))
    (modulo : exec j s = s.writeQuotient a d (modUnsigned n d)) (nonzero : d ≠ 0) :
    Completes i s (fun t => ∃ q : Word, WritesOnly s t a q ∧ q.toNat = n.toNat / d.toNat ∧
      Completes j s (fun t' => n.toNat = d.toNat * q.toNat + (t'.reg a).toNat ∧ (t'.reg a).toNat < d.toNat)) := by
  refine completes_of_writeQuotient division nonzero ⟨divUnsigned_toNat n d, ?_⟩
  refine ⟨_, modulo.trans (State.writeQuotient_ne_zero a _ nonzero), ?_⟩
  have positive : 0 < d.toNat := Nat.pos_of_ne_zero fun zero => nonzero (BitVec.eq_of_toNat_eq zero)
  simp only [State.advance_reg, State.setReg_reg_same, divUnsigned_toNat, modUnsigned_toNat]
  exact ⟨(Nat.div_add_mod ..).symm, Nat.mod_lt _ positive⟩

/-! ### Words of opcode 0x00 (`30_encoding.md` rule R80, decision D18) -/

/-- Every bit of the word of `nop` is fixed. -/
theorem decode_opcodeZero {w : InstrWord} (opcode : fieldOpcode w = 0#8) (nonzero : w ≠ 0#32) :
    decode w = .error .mustBeZero := by
  rw [decode_of_opcode (i := .nop) (by rw [opcode]; rfl)]
  refine if_neg fun fixed => nonzero ?_
  calc w = w &&& Format.z.mask := BitVec.and_allOnes.symm
    _ = putField (0#8) 24 := by rw [← opcode]; exact fixed
    _ = 0#32 := rfl

/-- Rule R205: a fetched word that does not decode raises `IllegalInstruction` with the word. -/
theorem step_illegalInstruction {s : State} {w : InstrWord} {e : DecodeReject} (running : s.status = .running)
    (notAtEnd : s.platform.endPc ≠ some s.pc) (fetched : fetch s = .ok w) (rejected : decode w = .error e) :
    step s = .next (s.faultedWith (.illegalInstruction w)) := by
  rw [step_running s running notAtEnd]
  simp [fetchDecode, fetched, rejected, State.raise_eq]

/-! ### The obligations -/

/-- Settles O9: each form is one `writeResult` of the sum, difference or product, and `zext16` keeps the immediate's value. -/
theorem addSubMulKeepTheLow64Bits : Obligations.AddSubMulKeepTheLow64Bits := by
  intro a b c imm s
  simp only [← zext16_toNat imm]
  refine ⟨?add, ?addI, ?sub, ?subI, ?subRi, ?mul, ?mulI⟩
  case add | addI => exact completes_of_writeResult rfl (addWords_eq_ofNat ..)
  case sub | subI | subRi => exact completes_of_writeResult rfl (subWords_eq_ofInt ..)
  case mul | mulI => exact completes_of_writeResult rfl (mulWords_eq_ofNat ..)

/-- Settles O10: the three forms are `unsignedDivision_completes` of their operands. -/
theorem unsignedDivisionIsFloor : Obligations.UnsignedDivisionIsFloor := by
  intro a b c imm s
  simp only [← zext16_toNat imm]
  refine ⟨?div, fun nonzero => ?divI, ?divRi⟩
  case div | divRi => exact unsignedDivision_completes rfl rfl
  case divI => exact unsignedDivision_completes rfl rfl (zext16_eq_zero.not.mpr nonzero)

/-- Settles O12: each form is one `writeQuotient` of `divSigned`, and `sext16` keeps the immediate's value. -/
theorem signedDivisionRoundsTowardZero : Obligations.SignedDivisionRoundsTowardZero := by
  intro a b c imm s
  simp only [← sext16_toInt imm]
  refine ⟨fun nonzero => ?sdiv, fun nonzero => ?sdivI, fun nonzero => ?sdivRi⟩
  case sdiv | sdivRi => exact completes_of_writeQuotient rfl nonzero (divSigned_signedQuotient ..)
  case sdivI => exact completes_of_writeQuotient rfl (sext16_eq_zero.not.mpr nonzero) (divSigned_signedQuotient ..)

/-- Settles O14: both instructions write `a`, and the values they write satisfy the division identity. -/
theorem signedQuotientAndRemainderAgree : Obligations.SignedQuotientAndRemainderAgree := by
  intro a b c s nonzero
  refine ⟨_, State.writeQuotient_ne_zero a _ nonzero, _, State.writeQuotient_ne_zero a _ nonzero, ?_⟩
  simpa using divSigned_mul_add_modSigned (s.reg b) (s.reg c)

/-- Settles O41: the updates an execution is built from keep `status`, but for the two that raise a fault. -/
theorem instructionsCompleteOrWriteNothing : Obligations.InstructionsCompleteOrWriteNothing := by
  intro i s t h
  cases exec_next h with
  | nothing | register | flags | byte | push | pop | pc => exact .inl (by simp)
  | divideByZero | accessFault => exact .inr ⟨_, s.faultedWith_faultsWith _⟩

/-- Settles O8: the check of `nop`'s row rejects every word of opcode 0x00 but 0, and executing `nop` is one `advance`. -/
theorem nopOnlyAdvancesPc : Obligations.NopOnlyAdvancesPc := by
  refine ⟨rfl, fun w s opcode nonzero running notAtEnd fetched => ?_, fun s => ⟨_, rfl, s.advance_advancesOnly⟩⟩
  exact ⟨_, step_illegalInstruction running notAtEnd fetched (decode_opcodeZero opcode nonzero), s.faultedWith_faultsWith _⟩

/-- Settles O15: each of the twelve is one `writeQuotient` by the divisor its form names, and both extensions of 0 are 0. -/
theorem zeroDivisorRaisesDivideByZero : Obligations.ZeroDivisorRaisesDivideByZero := by
  intro a b c imm s
  simp only [List.forall_mem_cons, List.not_mem_nil, false_imp_iff, implies_true, and_true]
  refine ⟨fun zero => ?register, ?immediate, fun zero => ?registerOfImmediate⟩
  case register | registerOfImmediate =>
    refine ⟨?_, ?_, ?_, ?_⟩ <;> exact faults_of_writeQuotient rfl zero
  case immediate =>
    -- Under a name, so that the unifier meets `writeQuotient` and not its branch for the literal 0.
    generalize zero : (0 : Imm16) = divisor
    refine ⟨?divI, ?sdivI, ?modI, ?smodI⟩
    case divI | modI => exact faults_of_writeQuotient rfl (zext16_eq_zero.mpr zero.symm)
    case sdivI | smodI => exact faults_of_writeQuotient rfl (sext16_eq_zero.mpr zero.symm)

end Sys2Proof.Machine
end

section
/-! PROOFS. Bitwise logic (`41_logic.md`): each operation bit by bit, and the must-be-zero bits of a row (`30_encoding.md` rule R79). -/

namespace Sys2Proof

/-! ### Must-be-zero bits (rules R63, R79) -/

/-- Where the fixed bits are those of the opcode, every field below the opcode that the mask covers is 0. -/
theorem extract_eq_zero_of_fixed {w m : InstrWord} {lo n : Nat} (below : lo + n ≤ 24)
    (covered : m.extractLsb' lo n = BitVec.allOnes n) (fixed : w &&& m = putField (fieldOpcode w) 24) :
    w.extractLsb' lo n = 0#n := by
  calc w.extractLsb' lo n
      = (w &&& m).extractLsb' lo n := by rw [BitVec.extractLsb'_and, covered, BitVec.and_allOnes]
    _ = 0#n := by rw [fixed, extract_putField_other _ _ _ _ (.inl below)]

/-- A word with the opcode of `i`'s row is rejected for a bit in a field that the row's format fixes to 0. -/
theorem decode_mustBeZero {w : InstrWord} {i : Instr} {lo n : Nat} (opcode : fieldOpcode w = fieldOpcode (encode i))
    (below : lo + n ≤ 24) (covered : i.format.mask.extractLsb' lo n = BitVec.allOnes n)
    (bitSet : w.extractLsb' lo n ≠ 0#n) : decode w = .error .mustBeZero :=
  (definedOpcodesDecodeUnlessAFixedBitIsSet w i opcode).2 fun fixed => bitSet (extract_eq_zero_of_fixed below covered fixed)

/-- The word of an instruction, under any name of it, decodes to the instruction. -/
theorem decode_of_encode_eq {w : InstrWord} {i : Instr} (word : encode i = w) (wf : i.wellFormed = true) :
    decode w = .ok i :=
  word ▸ decodeOfEncodeIsTheInstruction i wf

namespace Machine

/-! ### The operations bit by bit (rules R120 to R126) -/

section
variable (p q : Word) (i : Nat)

@[simp] theorem andWords_getLsbD : (andWords p q).getLsbD i = (p.getLsbD i && q.getLsbD i) := BitVec.getLsbD_and

@[simp] theorem orWords_getLsbD : (orWords p q).getLsbD i = (p.getLsbD i || q.getLsbD i) := BitVec.getLsbD_or

@[simp] theorem xorWords_getLsbD : (xorWords p q).getLsbD i = (p.getLsbD i != q.getLsbD i) := BitVec.getLsbD_xor

end

section
variable (p q : Word) {i : Nat} (inWord : i < 64)
include inWord

theorem notWord_getLsbD : (notWord p).getLsbD i = !p.getLsbD i := by
  rw [notWord, BitVec.getLsbD_not, decide_eq_true inWord, Bool.true_and]

/-- `nand` is the complement of `and`; the next two are of `or` and `xor`. -/
theorem nandWords_getLsbD : (nandWords p q).getLsbD i = !(p.getLsbD i && q.getLsbD i) :=
  andWords_getLsbD p q i ▸ notWord_getLsbD (andWords p q) inWord

theorem norWords_getLsbD : (norWords p q).getLsbD i = !(p.getLsbD i || q.getLsbD i) :=
  orWords_getLsbD p q i ▸ notWord_getLsbD (orWords p q) inWord

theorem xnorWords_getLsbD : (xnorWords p q).getLsbD i = (p.getLsbD i == q.getLsbD i) := by
  calc (xnorWords p q).getLsbD i
      = !(p.getLsbD i != q.getLsbD i) := xorWords_getLsbD p q i ▸ notWord_getLsbD (xorWords p q) inWord
    _ = (p.getLsbD i == q.getLsbD i) := Bool.not_not _

end

/-! ### Completing with a result that has a property -/

/-- An instruction that is one `writeResult` writes a value with whatever property `v` has. -/
theorem completes_of_writeResult_with {i : Instr} {s : State} {a : Reg} {v : Word} {P : Word → Prop}
    (h : exec i s = s.writeResult a v) (value : P v) : Completes i s (fun t => ∃ w, WritesOnly s t a w ∧ P w) :=
  ⟨_, h, v, s.setReg_advance_writesOnly a v, value⟩

/-! ### The obligations -/

/-- Settles O17: `not` is one `writeResult` of the complement of `a`, and the format of its row fixes bits 19:0 to 0. -/
theorem notComplementsInPlace : Obligations.NotComplementsInPlace := by
  refine ⟨fun a s => ⟨?decodes, ?completes⟩, fun w opcode bitSet => ?rejected⟩
  case decodes => exact decode_of_encode_eq rfl rfl
  case completes => exact completes_of_writeResult_with rfl fun _ => notWord_getLsbD (s.reg a)
  case rejected =>
    have ofRow : fieldOpcode w = fieldOpcode (encode (.not 0)) := opcode.trans (packR_opcode 0x11#8 0).symm
    exact decode_mustBeZero ofRow (by decide) (by decide) bitSet

/-- Settles O16: each of the six is one `writeResult` of its operation on `b` and `c`. -/
theorem logicWorksBitByBit : Obligations.LogicWorksBitByBit := by
  intro a b c s
  refine ⟨⟨?_, ?and⟩, ⟨?_, ?or⟩, ⟨?_, ?xor⟩, ⟨?_, ?nand⟩, ⟨?_, ?nor⟩, ⟨?_, ?xnor⟩⟩
  case and => exact completes_of_writeResult_with rfl fun i _ => andWords_getLsbD _ _ i
  case or => exact completes_of_writeResult_with rfl fun i _ => orWords_getLsbD _ _ i
  case xor => exact completes_of_writeResult_with rfl fun i _ => xorWords_getLsbD _ _ i
  case nand => exact completes_of_writeResult_with rfl fun _ => nandWords_getLsbD _ _
  case nor => exact completes_of_writeResult_with rfl fun _ => norWords_getLsbD _ _
  case xnor => exact completes_of_writeResult_with rfl fun _ => xnorWords_getLsbD _ _
  all_goals exact decode_of_encode_eq rfl rfl

end Machine

end Sys2Proof
end

section
/-! PROOFS. The remainders of unsigned and signed division (`42_modulo.md`). -/

namespace Sys2Proof.Machine

/-! ### The remainders as integer arithmetic (rules R136, R137) -/

/-- The two clauses of rule R136 for a divisor other than 0. -/
theorem modUnsigned_remainder (n : Word) {d : Word} (nonzero : d ≠ 0) : (modUnsigned n d).toNat < d.toNat ∧
    (modUnsigned n d).toNat = n.toNat - d.toNat * (n.toNat / d.toNat) := by
  have positive : 0 < d.toNat := Nat.pos_of_ne_zero fun zero => nonzero (BitVec.eq_of_toNat_eq zero)
  rw [modUnsigned_toNat]
  exact ⟨Nat.mod_lt _ positive, Nat.mod_eq_sub_mul_div⟩

/-- The model's signed remainder is the library's. -/
theorem modSigned_eq_srem (n d : Word) : modSigned n d = n.srem d := by
  rw [modSigned, ← Int.tmod_def, ← BitVec.toInt_srem, BitVec.ofInt_toInt]

/-- The remainder of the division rounded toward zero has the magnitude of the remainder of the magnitudes, so only its sign
depends on the case. Nothing wraps, in the overflow case of the quotient either. -/
theorem modSigned_signedRemainder (n d : Word) : SignedRemainder n.toInt d.toInt (modSigned n d) := by
  unfold SignedRemainder
  rw [modSigned_eq_srem, BitVec.toInt_srem, ← Int.natAbs_tmod]
  split
  case isTrue negative =>
    have nonpos : n.toInt.tmod d.toInt ≤ 0 :=
      Int.neg_nonneg.mp (Int.neg_tmod .. ▸ Int.tmod_nonneg d.toInt (Int.neg_nonneg.mpr negative.le))
    rw [Int.ofNat_natAbs_of_nonpos nonpos, Int.neg_neg]
  case isFalse nonneg =>
    exact (Int.natAbs_of_nonneg (Int.tmod_nonneg _ (Int.not_lt.mp nonneg))).symm

/-! ### Completing for every divisor (rule R118) -/

/-- An instruction that is one `writeQuotient` faults exactly for the divisor 0, under any name `zero` of that condition. -/
theorem completes_or_faults_of_writeQuotient {i : Instr} {s : State} {a : Reg} {d v : Word} {zero : Prop} [Decidable zero]
    {P : Word → Prop} (h : exec i s = s.writeQuotient a d v) (isZero : d = 0 ↔ zero) (value : d ≠ 0 → P v) :
    Completes i s (fun t => if zero then FaultsWith s t .divideByZero else ∃ r, WritesOnly s t a r ∧ P r) := by
  split
  case isTrue holds => exact faults_of_writeQuotient h (isZero.mpr holds)
  case isFalse fails =>
    have nonzero : d ≠ 0 := isZero.not.mpr fails
    exact completes_of_writeQuotient h nonzero (value nonzero)

/-! ### The obligations -/

/-- Settles O11: each form is one `writeQuotient` of `modUnsigned`, and `zext16` keeps the immediate's value. -/
theorem unsignedModuloIsTheRemainder : Obligations.UnsignedModuloIsTheRemainder := by
  intro a b c imm s
  simp only [← zext16_toNat imm]
  refine ⟨?mod, ?modI, ?modRi⟩
  case mod | modRi => exact completes_or_faults_of_writeQuotient rfl .rfl (modUnsigned_remainder _)
  case modI => exact completes_or_faults_of_writeQuotient rfl zext16_eq_zero (modUnsigned_remainder _)

/-- Settles O13: each form is one `writeQuotient` of `modSigned`, and `sext16` keeps the immediate's value. -/
theorem signedModuloTakesTheDividendsSign : Obligations.SignedModuloTakesTheDividendsSign := by
  intro a b c imm s
  simp only [← sext16_toInt imm]
  refine ⟨fun nonzero => ?smod, fun nonzero => ?smodI, fun nonzero => ?smodRi⟩
  case smod | smodRi => exact completes_of_writeQuotient rfl nonzero (modSigned_signedRemainder ..)
  case smodI => exact completes_of_writeQuotient rfl (sext16_eq_zero.not.mpr nonzero) (modSigned_signedRemainder ..)

end Sys2Proof.Machine
end

section
/-! PROOFS. Shifts and rotates (`43_shift_rotate.md`): the shifts as natural-number arithmetic, the rotates bit by bit. -/

namespace Sys2Proof

/-- Format `RR` fixes bits 15:0 to 0 (`30_encoding.md` rule R63). -/
theorem packRr_low_eq_zero (op : BitVec 8) (a b : Reg) : (packRr op a b).extractLsb' 0 16 = 0#16 :=
  extract_eq_zero_of_fixed (by decide) (by decide) (packRr_fixed op a b)

namespace Machine

/-! ### Shifts by any amount (rule R140) -/

theorem shiftRight_eq_zero (v : Word) {n : Nat} (large : 64 ≤ n) : shiftRight v n = 0 := if_neg large.not_gt

theorem shiftLeft_eq_zero (v : Word) {n : Nat} (large : 64 ≤ n) : shiftLeft v n = 0 := if_neg large.not_gt

/-- For 64 places or more the divisor exceeds every word, so the quotient is 0. -/
theorem shiftRight_eq_ofNat (v : Word) (n : Nat) : shiftRight v n = BitVec.ofNat 64 (v.toNat / 2 ^ n) := by
  obtain small | large := Nat.lt_or_ge n 64
  · calc shiftRight v n = v >>> n := if_pos small
      _ = BitVec.ofNat 64 (v.toNat / 2 ^ n) := by
        rw [← Nat.shiftRight_eq_div_pow, ← BitVec.toNat_ushiftRight, BitVec.ofNat_toNat, BitVec.setWidth_eq]
  · have tooLarge : v.toNat < 2 ^ n := v.isLt.trans_le (Nat.pow_le_pow_right (by decide) large)
    rw [shiftRight_eq_zero v large, Nat.div_eq_of_lt tooLarge]
    rfl

/-- For 64 places or more the factor is a multiple of 2^64, so the low 64 bits of the product are 0. -/
theorem shiftLeft_eq_ofNat (v : Word) (n : Nat) : shiftLeft v n = BitVec.ofNat 64 (v.toNat * 2 ^ n) := by
  apply BitVec.eq_of_toNat_eq
  rw [BitVec.toNat_ofNat]
  obtain small | large := Nat.lt_or_ge n 64
  · rw [shiftLeft, if_pos small, BitVec.toNat_shiftLeft, Nat.shiftLeft_eq]
  · have multiple : 2 ^ 64 ∣ v.toNat * 2 ^ n := Dvd.dvd.mul_left (Nat.pow_dvd_pow 2 large) _
    rw [shiftLeft_eq_zero v large, Nat.mod_eq_zero_of_dvd multiple]
    rfl

/-! ### Rotates bit by bit (rules R145, R146) -/

theorem rotateRightOne_getLsbD_last (v : Word) : (rotateRightOne v).getLsbD 63 = v.getLsbD 0 := by
  rw [rotateRightOne, BitVec.getLsbD_append, if_neg (by decide)]
  simp

theorem rotateRightOne_getLsbD_of_lt (v : Word) {i : Nat} (notLast : i < 63) :
    (rotateRightOne v).getLsbD i = v.getLsbD (i + 1) := by
  rw [rotateRightOne, BitVec.getLsbD_append, if_pos notLast]
  simp [notLast, Nat.add_comm]

theorem rotateLeftOne_getLsbD_zero (v : Word) : (rotateLeftOne v).getLsbD 0 = v.getLsbD 63 := by
  rw [rotateLeftOne, BitVec.getLsbD_append, if_pos (by decide)]
  simp

theorem rotateLeftOne_getLsbD_succ (v : Word) {i : Nat} (notLast : i < 63) :
    (rotateLeftOne v).getLsbD (i + 1) = v.getLsbD i := by
  rw [rotateLeftOne, BitVec.getLsbD_append, if_neg (by omega)]
  simp [notLast]

/-! ### The obligations -/

/-- Settles O18: each of the four is one `writeResult` of a shift of `a`, for an amount that does not depend on `b`. -/
theorem shiftsUseTheWholeAmount : Obligations.ShiftsUseTheWholeAmount := by
  intro a b c imm s
  refine ⟨?rsh, ?rshI, ?lsh, ?lshI⟩
  case rsh | rshI => exact completes_of_writeResult rfl (shiftRight_eq_ofNat ..)
  case lsh | lshI => exact completes_of_writeResult rfl (shiftLeft_eq_ofNat ..)

/-- Settles O19: each of the four is one `writeResult` of a shift of `a`. -/
theorem shiftsOf64OrMoreGiveZero : Obligations.ShiftsOf64OrMoreGiveZero := by
  intro a b c imm s
  refine ⟨fun large => ⟨?rsh, ?lsh⟩, fun large => ⟨?rshI, ?lshI⟩⟩
  case rsh | rshI => exact completes_of_writeResult rfl (shiftRight_eq_zero _ large)
  case lsh | lshI => exact completes_of_writeResult rfl (shiftLeft_eq_zero _ large)

/-- Settles O20: `ror` and `rol` are one `writeResult` of a rotate of `a`, encoded in format `RR`. -/
theorem rotatesMoveEveryBitOnePlace : Obligations.RotatesMoveEveryBitOnePlace := by
  intro a b s
  refine ⟨⟨decode_of_encode_eq rfl rfl, packRr_low_eq_zero .., ?ror⟩,
    ⟨decode_of_encode_eq rfl rfl, packRr_low_eq_zero .., ?rol⟩⟩
  case ror =>
    exact completes_of_writeResult_with rfl
      ⟨rotateRightOne_getLsbD_last (s.reg a), fun _ => rotateRightOne_getLsbD_of_lt (s.reg a)⟩
  case rol =>
    exact completes_of_writeResult_with rfl
      ⟨rotateLeftOne_getLsbD_zero (s.reg a), fun _ => rotateLeftOne_getLsbD_succ (s.reg a)⟩

end Machine

end Sys2Proof
end

section
/-! PROOFS. Moves (`44_move_ldi.md`): the copy, and the immediate in one of the four chunks. -/

namespace Sys2Proof.Machine

/-! ### A word with one field placed in it (rules R75, R151) -/

/-- A word is cut into fields of `n` bits, the field `k` from bit `n * k` on. With `v` placed in field `j`, that field reads `v`; a
lower one has only the zeros of the shift, a higher one those of the extension. -/
theorem extract_placed {n width : Nat} (v : BitVec n) (j : Nat) {k : Nat} (inWord : n * (k + 1) ≤ width) :
    (v.setWidth width <<< (n * j)).extractLsb' (n * k) n = if k = j then v else 0#n := by
  apply BitVec.eq_of_getLsbD_eq
  intro i hi
  rw [Nat.mul_add_one] at inWord
  have bitInWord : n * k + i < width := by omega
  obtain lower | rfl | higher := Nat.lt_trichotomy k j
  · have ends : n * (k + 1) ≤ n * j := Nat.mul_le_mul_left n lower
    have shiftedIn : n * k + i < n * j := by rw [Nat.mul_add_one] at ends; omega
    simp [lower.ne, shiftedIn]
  · simp [hi, bitInWord]
  · have ends : n * (j + 1) ≤ n * k := Nat.mul_le_mul_left n higher
    have extended : v.getLsbD (n * k + i - n * j) = false :=
      BitVec.getLsbD_of_ge _ _ (by rw [Nat.mul_add_one] at ends; omega)
    simp [higher.ne', extended]

/-- What the four chunks of `placeChunk` hold (decision D20). -/
theorem placeChunk_chunk (imm : Imm16) (chunk : Nat) {k : Nat} (inWord : k < 4) :
    (placeChunk imm chunk).extractLsb' (16 * k) 16 = if k = chunk then imm else 0#16 :=
  extract_placed imm chunk (Nat.mul_le_mul_left 16 inWord)

/-! ### The obligations -/

/-- Settles O22: `ldi` is one `writeResult` of `placeChunk`. The bound on `chunk` is not needed: it only says that the chunk with the
immediate is one of the four. -/
theorem ldiPlacesTheImmediateInOneChunk : Obligations.LdiPlacesTheImmediateInOneChunk := by
  intro a chunk imm s _
  exact completes_of_writeResult_with rfl fun _ => placeChunk_chunk imm chunk

/-- Settles O21: `mov` is one `writeResult` of `b`, encoded in format `RR`. -/
theorem movCopiesTheRegister : Obligations.MovCopiesTheRegister := by
  intro a b s
  exact ⟨decode_of_encode_eq rfl rfl, packRr_low_eq_zero .., completes_of_writeResult rfl rfl⟩

end Sys2Proof.Machine
end

section
/-! PROOFS. Loads, stores and the stack (`45_load_store_stack.md`): the whole effect of each, and that `pop` undoes `push`. -/

namespace Sys2Proof.Machine

/-! ### Loads of one byte (rules R160, R161) -/

/-- An instruction that is one `loadLane` of a populated address places the byte there (conflicts C4, C5, C6). -/
theorem completes_of_loadLane {i : Instr} {s : State} {a : Reg} {addr : Word} {lane : Nat}
    (h : exec i s = s.loadLane a addr lane) (populated : s.platform.isPopulated addr = true) :
    Completes i s (fun t => ∃ v, WritesOnly s t a v ∧
      ∀ k < 8, byteLane v k = if k = lane then s.readByte addr else 0#8) :=
  ⟨_, h.trans (State.loadLane_populated a lane populated), _, s.setReg_advance_writesOnly a _,
    fun _ => byteLane_placeByte (s.readByte addr) lane _⟩

/-! ### Stores (rules R44, R45, R162 to R164) -/

/-- The stored bytes read as stored, every other byte as before, and no register or flag is written. -/
theorem State.storeBytes_setSp_advance_storesOnly (s : State) (addr v newSp : Word) {n : Nat} (fits : n ≤ 2 ^ 64) :
    StoresOnly s ((s.setMem (s.mem.storeBytes addr v n)).setSp newSp).advance addr n v newSp := by
  have stored : ∀ k < n, (s.setMem (s.mem.storeBytes addr v n)).readByte (addr + BitVec.ofNat 64 k) = byteLane v k :=
    fun k hk => s.readByte_stored addr v n k hk fits
  have others : SameMemoryOutside s (s.setMem (s.mem.storeBytes addr v n)) addr n :=
    fun x outside => s.readByte_notStored addr v x n outside
  exact ⟨stored, others, by simp [SameFlags, SameRunning]⟩

/-- An instruction that is one `storeLane` to a populated address stores the lane there and keeps `sp` (decision D21). -/
theorem completes_of_storeLane {i : Instr} {s : State} {a : Reg} {addr : Word} {lane : Nat}
    (h : exec i s = s.storeLane a addr lane) (populated : s.platform.isPopulated addr = true) :
    Completes i s (fun t => StoresOnly s t addr 1 ((byteLane (s.reg a) lane).setWidth 64) s.sp) :=
  ⟨_, h.trans (State.storeLane_populated a lane populated),
    s.storeBytes_setSp_advance_storesOnly addr _ s.sp (by decide)⟩

/-! ### The stack (rules R42, R164, R165) -/

theorem State.popWord_populated {s : State} (a : Reg) (populated : AllPopulated s (s.sp - 8) 8) :
    s.popWord a = .next ((s.setReg a (s.loadBytes (s.sp - 8) 8)).setSp (s.sp - 8)).advance := by
  have read : s.memRead (s.sp - stackSlot) 8 = .ok (s.loadBytes (s.sp - 8) 8) := s.memRead_populated (s.sp - 8) 8 populated
  rw [State.popWord, read]
  rfl

theorem State.pushWord_hole {s : State} {h : Word} (v : Word) (hole : FirstUnpopulated s s.sp 8 h) :
    s.pushWord v = .next (s.faultedWith (.accessFault h)) := by
  obtain ⟨k, hk, address, unpopulated, before⟩ := hole
  simp [State.pushWord, s.memWrite_hole s.sp v h 8 k hk address unpopulated before, State.raise_eq]

theorem State.popWord_hole {s : State} {h : Word} (a : Reg) (hole : FirstUnpopulated s (s.sp - 8) 8 h) :
    s.popWord a = .next (s.faultedWith (.accessFault h)) := by
  obtain ⟨k, hk, address, unpopulated, before⟩ := hole
  have read : s.memRead (s.sp - stackSlot) 8 = .error (.accessFault h) :=
    s.memRead_hole (s.sp - 8) h 8 k hk address unpopulated before
  rw [State.popWord, read]
  rfl

/-! ### The obligations -/

/-- Settles O23: both forms are one `loadLane`. The bound on `lane` is not needed: it only says that the lane with the byte is one of
the eight. -/
theorem loadPlacesTheByteInOneLane : Obligations.LoadPlacesTheByteInOneLane := by
  intro a b lane imm s _
  exact ⟨completes_of_loadLane rfl, completes_of_loadLane rfl⟩

/-- Settles O24: both forms are one `storeLane`. The bound on `lane` is not needed: the lane stored is the one the statement reads. -/
theorem storeWritesOneLaneToOneByte : Obligations.StoreWritesOneLaneToOneByte := by
  intro a b lane imm s _
  exact ⟨completes_of_storeLane rfl, completes_of_storeLane rfl⟩

/-- Settles O26: `push` is a store of eight bytes at `sp` that leaves `sp + 8` there. -/
theorem pushStoresThenRaisesSp : Obligations.PushStoresThenRaisesSp :=
  fun a s populated => ⟨_, State.pushWord_populated (s.reg a) populated,
    s.storeBytes_setSp_advance_storesOnly s.sp (s.reg a) (s.sp + 8) (by decide)⟩

/-- Settles O27: `pop` is a write of the loaded value to `a` and of `sp - 8` to `sp`. -/
theorem popLowersSpThenLoads : Obligations.PopLowersSpThenLoads := by
  intro a s populated
  refine ⟨_, State.popWord_populated a populated, rfl, fun k hk => ?loaded, fun r notDestination => ?others, ?frame⟩
  case loaded =>
    rw [State.advance_reg, State.setSp_reg, State.setReg_reg_same, s.byteLane_loadBytes (s.sp - 8) 8 k hk, if_pos hk]
  case others =>
    exact s.setReg_reg_other a r _ (List.ne_of_not_mem_cons notDestination)
  case frame =>
    simp [SameFlags, SameMemory, SameRunning]

/-- Settles O28: `push` and `pop` access memory before they write anything, and the access names the first hole. -/
theorem stackAccessOutsideMemoryFaults : Obligations.StackAccessOutsideMemoryFaults :=
  fun a s _ => ⟨fun hole => ⟨_, State.pushWord_hole (s.reg a) hole, s.faultedWith_faultsWith _⟩,
    fun hole => ⟨_, State.popWord_hole a hole, s.faultedWith_faultsWith _⟩⟩

/-- Settles O29: the slot `pop` lowers `sp` to is the one `push` stored to, so the loaded bytes are those of `x`. -/
theorem popUndoesPush : Obligations.PopUndoesPush := by
  intro x y s populated
  obtain ⟨t, pushed, stored, -, regs, flags, raised, -, -, platform⟩ := pushStoresThenRaisesSp x s populated
  have slot : t.sp - 8 = s.sp := by rw [raised, add_sub_cancel_right]
  have readable : AllPopulated t (t.sp - 8) 8 := by rwa [slot, AllPopulated, platform]
  obtain ⟨u, popped, lowered, loaded, others, flagsKept, memory, -, -⟩ := popLowersSpThenLoads y t readable
  have value : u.reg y = s.reg x := eq_of_byteLane_eq _ _ fun k hk => by rw [loaded k hk, slot, stored k hk]
  have registers : SameRegsExcept s u [y] := fun r other => (others r other).trans (regs r)
  obtain ⟨greater, equal, smaller⟩ := flags
  obtain ⟨greater', equal', smaller'⟩ := flagsKept
  exact ⟨t, pushed, u, popped, lowered.trans slot, value, registers,
    ⟨greater'.trans greater, equal'.trans equal, smaller'.trans smaller⟩, memory⟩

end Sys2Proof.Machine
end

section
/-! PROOFS. The compares (`46_compare.md`): the whole effect of one, and that exactly one flag is 1 after it. -/

namespace Sys2Proof.Machine

/-! ### One compare (rule R170) -/

/-- Each flag is the truth of its own relation between the two integers, and no other field but `pc` is written. -/
theorem State.setFlags_advance_comparesOnly (s : State) (p q : Int) :
    ComparesOnly s (s.setFlags (decide (p > q)) (decide (p = q)) (decide (p < q))).advance p q := by
  simp [ComparesOnly, SameMemory, SameRunning]

/-- An instruction that is one `compare` completes in every state, and its flags exclude each other (decision D5). -/
theorem completes_of_compare {i : Instr} {s : State} {p q : Int} (h : exec i s = s.compare p q) :
    Completes i s (fun t => ComparesOnly s t p q ∧ t.OneFlag) :=
  ⟨_, h, s.setFlags_advance_comparesOnly p q, s.setFlags_oneFlag p q⟩

/-! ### The obligation -/

/-- Settles O32: each form is one `compare`. `zext16` keeps the immediate's unsigned value and `sext16` its signed value, so the
forms with an immediate compare the integers that the rules name. -/
theorem comparesSetExactlyOneFlag : Obligations.ComparesSetExactlyOneFlag := by
  intro a b imm s
  rw [← zext16_toNat imm, ← sext16_toInt imm]
  refine ⟨?cmp, ?cmpI, ?cmpRi, ?scmp, ?scmpI, ?scmpRi⟩
  case cmp | cmpI | cmpRi | scmp | scmpI | scmpRi => exact completes_of_compare rfl

end Sys2Proof.Machine
end

section
/-! PROOFS. Branches, the branch macros and `inc`, `dec` (`47_branch.md`, `48_pseudoinstructions.md`), and one written-out word of
each format (`30_encoding.md` rule R63). -/

namespace Sys2Proof.Machine

/-! ### One branch (rules R180, R191, decision D22) -/

theorem State.branch_eq (s : State) (taken : Bool) (off : Word) :
    s.branch taken off = .next (s.offsetPc (if taken then off else 4)) := by
  cases taken <;> rfl

theorem State.offsetPc_jumpsOnly (s : State) (off : Word) : JumpsOnly s (s.offsetPc off) (s.pc + off) := by
  simp [JumpsOnly, SameFlags, SameMemory, SameRunning]

/-- Adding an offset modulo 2^64 is adding its signed value. -/
theorem add_eq_ofInt (p off : Word) : p + off = BitVec.ofInt 64 (p.toNat + off.toInt) := by
  rw [BitVec.ofInt_add, BitVec.ofInt_natCast, BitVec.ofNat_toNat, BitVec.setWidth_eq, BitVec.ofInt_toInt]

/-- An instruction that is one `branch` moves `pc` by the signed offset when taken and by 4 when not. -/
theorem completes_of_branch {i : Instr} {s : State} {taken : Bool} {off : Word} (h : exec i s = s.branch taken off) :
    Completes i s (fun t => JumpsOnly s t (BitVec.ofInt 64 (s.pc.toNat + if taken then off.toInt else 4))) := by
  have target : s.pc + (if taken then off else 4) = BitVec.ofInt 64 (s.pc.toNat + if taken then off.toInt else 4) := by
    cases taken with
    | true => exact add_eq_ofInt s.pc off
    | false => exact add_eq_ofInt s.pc 4
  exact ⟨_, h.trans (s.branch_eq taken off), target ▸ s.offsetPc_jumpsOnly _⟩

/-- Settles O33: `b` and `b.i` are branches that are always taken. -/
theorem unconditionalBranchesOffsetPc : Obligations.UnconditionalBranchesOffsetPc := by
  intro a imm s
  rw [← sext16_toInt imm]
  exact ⟨completes_of_branch (taken := true) rfl, completes_of_branch (taken := true) rfl⟩

/-- Settles O34: each form is one `branch` on the flag its rule names, and `sext16` keeps the immediate's signed value. -/
theorem conditionalBranchesReadOneFlag : Obligations.ConditionalBranchesReadOneFlag := by
  intro a imm s
  rw [← sext16_toInt imm]
  refine ⟨?bg, ?bgI, ?be, ?beI, ?bs, ?bsI⟩
  case bg | bgI | be | beI | bs | bsI => exact completes_of_branch rfl

/-! ### The branch macros (rule R197) -/

/-- Two branches in a row that have one target: the second stands 4 bytes after the first, and its offset is 4 less. -/
theorem macroBranches_of_branches {i j : Instr} {s : State} {first second : Bool} {off : Word}
    (hi : exec i s = s.branch first off) (hj : exec j (s.offsetPc 4) = (s.offsetPc 4).branch second (off - 4)) :
    MacroBranches [i, j] s (first || second) off := by
  refine ⟨i, j, rfl, _, hi.trans (s.branch_eq first off), ?_⟩
  cases first with
  | true => exact .inl ⟨s.offsetPc_jumpsOnly off, rfl⟩
  | false =>
    have target : (s.offsetPc 4).pc + (if second then off - 4 else 4) = if second then s.pc + off else s.pc + 8 := by
      cases second with
      | true => exact (add_assoc s.pc 4 (off - 4)).trans (congrArg (s.pc + ·) (add_sub_cancel 4 off))
      | false => exact add_assoc s.pc 4 4
    exact .inr ⟨s.offsetPc_jumpsOnly 4, _, hj.trans (State.branch_eq _ second _),
      target ▸ (s.offsetPc 4).offsetPc_jumpsOnly _⟩

/-- Settles O7: the second branch reads its flag after the first, which writes no flag, and its offset is 4 less. -/
theorem branchMacrosBranchOnEitherFlag : Obligations.BranchMacrosBranchOnEitherFlag := by
  intro off s fits
  refine ⟨macroBranches_of_branches rfl ?bge, macroBranches_of_branches rfl ?bne, macroBranches_of_branches rfl ?bse⟩
  case bge | bne | bse => rw [← fits]; rfl

/-! ### `inc` and `dec` (rules R195, R196, decision D28) -/

/-- Settles O6: both are one `writeResult`, and the extended immediate is 1. -/
theorem incAndDecAreAddAndSubtractOne : Obligations.IncAndDecAreAddAndSubtractOne :=
  fun _ _ => ⟨rfl, completes_of_writeResult rfl rfl, rfl, completes_of_writeResult rfl rfl⟩

/-! ### Written-out words (`95_test_vectors.md` table 1) -/

/-- Settles O5: each of the words is the encoding of its instruction, which is well formed. -/
theorem wordsOfEachFormatDecode : Obligations.WordsOfEachFormatDecode := by
  refine ⟨?z, ?rrr, ?rri, ?rr, ?rri8, ?r, ?ri, ?i, ?ldi, ?mr, ?mi⟩
  case z | rrr | rri | rr | rri8 | r | ri | i | ldi | mr | mi => exact decode_of_encode_eq rfl rfl

end Sys2Proof.Machine
end

section
/-! PROOFS. Faults (`60_exceptions.md`) and the steps of a run (`70_reset_and_hazards.md`): which instruction raises which fault, what
a step of a running, an ended and a faulted machine answers, and the step after an instruction is placed. -/

namespace Sys2Proof.Machine

/-! ### Which operation raises which fault (rule R201) -/

section
variable {s t : State} {f : Fault} (running : s.status = .running)
include running

/-- A result that keeps the status of a running machine has not faulted. -/
theorem not_faulted_of_status_eq (same : t.status = s.status) : t.status ≠ .faulted f := by
  rw [same, running]
  exact nofun

theorem fault_of_writeQuotient {a : Reg} {d v : Word} (h : s.writeQuotient a d v = .next t)
    (faulted : t.status = .faulted f) : f = .divideByZero := by
  obtain ⟨-, rfl⟩ | ⟨-, rfl⟩ := State.writeQuotient_next h
  · exact (Status.faulted.inj faulted).symm
  · exact absurd faulted (not_faulted_of_status_eq running rfl)

theorem fault_of_loadLane {a : Reg} {addr : Word} {lane : Nat} (h : s.loadLane a addr lane = .next t)
    (faulted : t.status = .faulted f) : ∃ hole, f = .accessFault hole := by
  obtain ⟨-, rfl⟩ | ⟨-, rfl⟩ := State.loadLane_next h
  · exact absurd faulted (not_faulted_of_status_eq running rfl)
  · exact ⟨_, (Status.faulted.inj faulted).symm⟩

theorem fault_of_storeLane {a : Reg} {addr : Word} {lane : Nat} (h : s.storeLane a addr lane = .next t)
    (faulted : t.status = .faulted f) : ∃ hole, f = .accessFault hole := by
  obtain ⟨-, rfl⟩ | ⟨-, rfl⟩ := State.storeLane_next h
  · exact absurd faulted (not_faulted_of_status_eq running rfl)
  · exact ⟨_, (Status.faulted.inj faulted).symm⟩

theorem fault_of_pushWord {v : Word} (h : s.pushWord v = .next t) (faulted : t.status = .faulted f) :
    ∃ hole, f = .accessFault hole := by
  obtain ⟨-, rfl⟩ | ⟨hole, -, rfl⟩ := State.pushWord_next h
  · exact absurd faulted (not_faulted_of_status_eq running rfl)
  · exact ⟨hole, (Status.faulted.inj faulted).symm⟩

theorem fault_of_popWord {a : Reg} (h : s.popWord a = .next t) (faulted : t.status = .faulted f) :
    ∃ hole, f = .accessFault hole := by
  obtain ⟨-, rfl⟩ | ⟨hole, -, rfl⟩ := State.popWord_next h
  · exact absurd faulted (not_faulted_of_status_eq running rfl)
  · exact ⟨hole, (Status.faulted.inj faulted).symm⟩

end

/-- Settles O42: the instructions that are a `writeQuotient` or an access to memory are the ones listed, and every other keeps
`status`. -/
theorem onlyDivisionsAndMemoryInstructionsFault : Obligations.OnlyDivisionsAndMemoryInstructionsFault := by
  intro i s t f running h faulted
  cases i with
  | nop =>
    cases h
    exact absurd faulted (not_faulted_of_status_eq running rfl)
  | add | addI | sub | subI | subRi | mul | mulI | and | or | xor | not | nand | nor | xnor
  | rsh | rshI | lsh | lshI | ror | rol | mov | ldi =>
    obtain rfl := State.writeResult_next h
    exact absurd faulted (not_faulted_of_status_eq running rfl)
  | cmp | cmpI | cmpRi | scmp | scmpI | scmpRi =>
    obtain rfl := State.compare_next h
    exact absurd faulted (not_faulted_of_status_eq running rfl)
  | b | bI | bg | bgI | be | beI | bs | bsI =>
    obtain rfl := State.branch_next h
    exact absurd faulted (not_faulted_of_status_eq running rfl)
  | div a b c | sdiv a b c | mod a b c | smod a b c =>
    exact .inl ⟨fault_of_writeQuotient running h faulted, a, b, c, 0, by simp⟩
  | divI a b imm | divRi a b imm | sdivI a b imm | sdivRi a b imm
  | modI a b imm | modRi a b imm | smodI a b imm | smodRi a b imm =>
    exact .inl ⟨fault_of_writeQuotient running h faulted, a, b, 0, imm, by simp⟩
  | ldr a b lane => exact .inr ⟨fault_of_loadLane running h faulted, a, b, lane, 0, by simp⟩
  | ldrI a lane imm => exact .inr ⟨fault_of_loadLane running h faulted, a, 0, lane, imm, by simp⟩
  | str a b lane => exact .inr ⟨fault_of_storeLane running h faulted, a, b, lane, 0, by simp⟩
  | strI a lane imm => exact .inr ⟨fault_of_storeLane running h faulted, a, 0, lane, imm, by simp⟩
  | push a => exact .inr ⟨fault_of_pushWord running h faulted, a, 0, 0, 0, by simp⟩
  | pop a => exact .inr ⟨fault_of_popWord running h faulted, a, 0, 0, 0, by simp⟩

/-! ### Every instruction has a next state (rules R42, R118, R207) -/

/-- An access finds all its bytes populated or has a first hole. -/
theorem allPopulated_or_firstUnpopulated (s : State) (a : Word) (n : Nat) :
    AllPopulated s a n ∨ ∃ h, FirstUnpopulated s a n h :=
  (s.memRead_cases a n).imp And.left fun ⟨h, hole, _⟩ => ⟨h, hole⟩

section
variable (s : State) (a : Reg)

theorem State.exists_writeQuotient_next (d v : Word) : ∃ t, s.writeQuotient a d v = .next t := by
  by_cases zero : d = 0
  · exact ⟨_, if_pos zero⟩
  · exact ⟨_, State.writeQuotient_ne_zero a v zero⟩

theorem State.exists_loadLane_next (addr : Word) (lane : Nat) : ∃ t, s.loadLane a addr lane = .next t := by
  cases populated : s.platform.isPopulated addr with
  | true => exact ⟨_, State.loadLane_populated a lane populated⟩
  | false => exact ⟨_, State.loadLane_hole a lane populated⟩

theorem State.exists_storeLane_next (addr : Word) (lane : Nat) : ∃ t, s.storeLane a addr lane = .next t := by
  cases populated : s.platform.isPopulated addr with
  | true => exact ⟨_, State.storeLane_populated a lane populated⟩
  | false => exact ⟨_, State.storeLane_hole a lane populated⟩

theorem State.exists_pushWord_next (v : Word) : ∃ t, s.pushWord v = .next t := by
  obtain populated | ⟨_, hole⟩ := allPopulated_or_firstUnpopulated s s.sp 8
  · exact ⟨_, State.pushWord_populated v populated⟩
  · exact ⟨_, State.pushWord_hole v hole⟩

theorem State.exists_popWord_next : ∃ t, s.popWord a = .next t := by
  obtain populated | ⟨_, hole⟩ := allPopulated_or_firstUnpopulated s (s.sp - 8) 8
  · exact ⟨_, State.popWord_populated a populated⟩
  · exact ⟨_, State.popWord_hole a hole⟩

end

/-- Settles O35: each instruction is one call of an operation that answers a next state, completed or faulted. -/
theorem everyInstructionHasANextState : Obligations.EveryInstructionHasANextState := by
  intro i s
  cases i with
  | nop | add | addI | sub | subI | subRi | mul | mulI | and | or | xor | not | nand | nor | xnor
  | rsh | rshI | lsh | lshI | ror | rol | mov | ldi | cmp | cmpI | cmpRi | scmp | scmpI | scmpRi
  | b | bI | bg | bgI | be | beI | bs | bsI => exact ⟨_, rfl⟩
  | div | divI | divRi | sdiv | sdivI | sdivRi | mod | modI | modRi | smod | smodI | smodRi =>
    exact s.exists_writeQuotient_next ..
  | ldr | ldrI => exact s.exists_loadLane_next ..
  | str | strI => exact s.exists_storeLane_next ..
  | push => exact s.exists_pushWord_next _
  | pop => exact s.exists_popWord_next _

/-! ### A step, by the machine's status and what the fetch answers (rules R205, R207, R234, R235) -/

/-- Settles O48: `step` tests the status first. -/
theorem faultedMachineTakesNoStep : Obligations.FaultedMachineTakesNoStep := by
  intro s f faulted
  simp [step, faulted]

/-- Settles O50: of a running machine `step` tests the end address first. -/
theorem noStepAtTheEndAddress : Obligations.NoStepAtTheEndAddress := by
  rintro s ⟨running, atEnd⟩
  simp [step, running, atEnd]

/-- Settles O51: a step that answers a next state was one of a running machine away from its end, and there both the raised fault and
the executed instruction answer a next state. -/
theorem runningMachineStepsUnlessAtItsEnd : Obligations.RunningMachineStepsUnlessAtItsEnd := by
  refine fun s => ⟨fun ⟨t, h⟩ => ?stepped, fun ⟨running, notAtEnd⟩ => ?steps⟩
  case stepped =>
    obtain ⟨running, notAtEnd, -⟩ := step_next h
    exact ⟨running, notAtEnd⟩
  case steps =>
    rw [step_running s running notAtEnd]
    cases fetchDecode s with
    | error f => exact ⟨_, s.raise_eq f⟩
    | ok i => exact everyInstructionHasANextState i s

/-- Settles O47: a fault of the fetch or decoding is precise, and an execution that changes `status` is a precise fault. -/
theorem faultsArePrecise : Obligations.FaultsArePrecise := by
  intro s t f h faulted
  obtain ⟨running, -, ⟨g, -, rfl⟩ | ⟨i, -, executed⟩⟩ := step_next h
  · obtain rfl : g = f := Status.faulted.inj faulted
    exact s.faultedWith_faultsWith g
  · obtain same | ⟨g, -, frame⟩ := instructionsCompleteOrWriteNothing i s t executed
    · exact absurd faulted (not_faulted_of_status_eq running same)
    · exact ⟨faulted, frame⟩

section
variable {s : State} (running : s.status = .running) (notAtEnd : s.platform.endPc ≠ some s.pc)
include running notAtEnd

theorem step_of_fetch_error {f : Fault} (failed : fetch s = .error f) : step s = .next (s.faultedWith f) := by
  rw [step_running s running notAtEnd]
  simp [fetchDecode, failed, State.raise_eq]

theorem step_of_decode_ok {w : InstrWord} {i : Instr} (fetched : fetch s = .ok w) (decoded : decode w = .ok i) :
    step s = exec i s := by
  rw [step_running s running notAtEnd]
  simp [fetchDecode, fetched, decoded]

end

theorem fetch_misaligned {s : State} (misaligned : s.pc.toNat % 4 ≠ 0) : fetch s = .error (.misalignedFetch s.pc) :=
  if_neg misaligned

theorem fetch_hole {s : State} {h : Word} (aligned : s.pc.toNat % 4 = 0) (hole : FirstUnpopulated s s.pc 4 h) :
    fetch s = .error (.accessFault h) := by
  obtain ⟨k, hk, address, unpopulated, before⟩ := hole
  simp [fetch, aligned, s.memRead_hole s.pc h 4 k hk address unpopulated before]

/-- Settles O46: the fetch checks alignment before it reads memory, and the word is decoded after it has been read. -/
theorem fetchFaultsComeInOrder : Obligations.FetchFaultsComeInOrder := by
  refine fun s running notAtEnd => ⟨fun misaligned => ?_, fun aligned h hole => ?_, fun w e fetched rejected => ?_⟩
  · exact ⟨_, step_of_fetch_error running notAtEnd (fetch_misaligned misaligned), s.faultedWith_faultsWith _⟩
  · exact ⟨_, step_of_fetch_error running notAtEnd (fetch_hole aligned hole), s.faultedWith_faultsWith _⟩
  · exact ⟨_, step_illegalInstruction running notAtEnd fetched rejected, s.faultedWith_faultsWith _⟩

/-- Four bytes at `pc` that are those of a word make up the word (rule R45). -/
theorem wordOfBytes_readByte {s : State} {w : InstrWord}
    (bytes : ∀ k < 4, s.readByte (s.pc + BitVec.ofNat 64 k) = byteOfWord w k) :
    wordOfBytes (s.readByte s.pc) (s.readByte (s.pc + 1)) (s.readByte (s.pc + 2)) (s.readByte (s.pc + 3)) = w := by
  have byte0 : s.readByte s.pc = byteOfWord w 0 := by simpa using bytes 0 (by decide)
  have byte1 : s.readByte (s.pc + 1) = byteOfWord w 1 := bytes 1 (by decide)
  have byte2 : s.readByte (s.pc + 2) = byteOfWord w 2 := bytes 2 (by decide)
  have byte3 : s.readByte (s.pc + 3) = byteOfWord w 3 := bytes 3 (by decide)
  rw [byte0, byte1, byte2, byte3, wordOfBytes_bytesOfWord]

/-- Settles O44: the fetch of an aligned, populated `pc` answers the word of the four bytes there. -/
theorem stepExecutesTheDecodedInstruction : Obligations.StepExecutesTheDecodedInstruction := by
  intro s i running notAtEnd aligned populated decoded
  obtain ⟨w, fetched, bytes⟩ := fetchReadsFourBytesLittleEndian s aligned populated
  rw [wordOfBytes_readByte fun k hk => (bytes k hk).symm] at decoded
  exact step_of_decode_ok running notAtEnd fetched decoded

/-! ### Runs (rules R207, R209) -/

/-- A longer run from `s` goes on as the run from where the shorter one has come. -/
theorem run_add_of_run {M : Host.Core} {k : Nat} {s t : M.State} (h : M.run k s = .next t) (j : Nat) :
    M.run (k + j) s = M.run j t := by
  induction k generalizing s with
  | zero =>
    cases h
    rw [Nat.zero_add]
  | succ k ih =>
    rw [Nat.succ_add]
    rw [Host.Core.run] at h ⊢
    cases stepped : M.step s with
    | next u =>
      rw [stepped] at h
      exact ih h
    | fault | refused => simp [stepped] at h

theorem run_of_step_fault {M : Host.Core} {s : M.State} {f : M.Fault} (stepped : M.step s = .fault f) (j : Nat) :
    M.run (j + 1) s = .fault f := by
  rw [Host.Core.run, stepped]

/-- Settles O49: the longer run takes its next step from the faulted state, which answers the fault. -/
theorem noRunGoesPastAFault : Obligations.NoRunGoesPastAFault := by
  intro s t k f ran faulted j
  have stepped : core.step t = .fault f := faultedMachineTakesNoStep t f faulted
  exact (run_add_of_run ran (j + 1)).trans (run_of_step_fault stepped j)

/-! ### The step after an instruction is placed (rules R231, R234) -/

/-- An aligned address is at least 4 below 2^64, so the four bytes of a word there do not wrap. -/
theorem toNat_add_of_aligned {a : Word} (aligned : a.toNat % 4 = 0) {k : Nat} (hk : k < 4) :
    (a + BitVec.ofNat 64 k).toNat = a.toNat + k := by
  have bound := a.isLt
  rw [BitVec.toNat_add, BitVec.toNat_ofNat]
  omega

/-- The region `allowFetch` adds holds the word; without it the word was populated. -/
theorem Platform.allowFetch_populated (p : Platform) {a : Word} (aligned : a.toNat % 4 = 0) {k : Nat} (hk : k < 4) :
    (p.allowFetch a).isPopulated (a + BitVec.ofNat 64 k) = true := by
  cases hole : p.firstHole a 4 with
  | none =>
    have populated := (p.firstHole_none a 4).mp hole k hk
    simpa [Platform.allowFetch, Platform.isPopulated, hole] using populated
  | some h =>
    have held : Region.holds { base := a.toNat, size := 4 } (a + BitVec.ofNat 64 k) = true := by
      simp [Region.holds, toNat_add_of_aligned aligned hk, hk]
    simp [Platform.allowFetch, Platform.isPopulated, hole, held]

theorem Platform.allowFetch_endPc_ne (p : Platform) (a : Word) : (p.allowFetch a).endPc ≠ some a := by
  by_cases atEnd : p.endPc = some a <;> simp [Platform.allowFetch, atEnd]

/-- The address rounded down to a multiple of 4. -/
theorem toNat_sub_mod_four (a : Word) : (a - BitVec.ofNat 64 (a.toNat % 4)).toNat % 4 = 0 := by
  have bound := a.isLt
  rw [BitVec.toNat_sub, BitVec.toNat_ofNat]
  omega

section
variable (s : State) (w : InstrWord)

theorem State.withFetchWord_aligned (n v : Nat) : (s.withFetchWord n v).pc.toNat % 4 = 0 := toNat_sub_mod_four s.pc

theorem State.withFetchWord_populated (n v : Nat) : AllPopulated (s.withFetchWord n v) (s.withFetchWord n v).pc 4 :=
  fun _ => s.platform.allowFetch_populated (toNat_sub_mod_four s.pc)

/-- Placing a whole word stores its four bytes at `pc`. -/
theorem State.withFetchWord_mem :
    (s.withFetchWord 32 w.toNat).mem = s.mem.storeBytes (s.withFetchWord 32 w.toNat).pc (w.setWidth 64) 4 := by
  have word : BitVec.ofNat 32 (w.toNat % 2 ^ 32) = w := by
    rw [Nat.mod_eq_of_lt w.isLt, BitVec.ofNat_toNat, BitVec.setWidth_eq]
  exact congrArg (fun v : InstrWord => s.mem.storeBytes (s.withFetchWord 32 w.toNat).pc (v.setWidth 64) 4) word

theorem State.withFetchWord_readByte {k : Nat} (hk : k < 4) :
    (s.withFetchWord 32 w.toNat).readByte ((s.withFetchWord 32 w.toNat).pc + BitVec.ofNat 64 k) = byteOfWord w k := by
  have low : (w.setWidth 64).setWidth 32 = w := BitVec.setWidth_setWidth_of_le w (by decide)
  calc (s.withFetchWord 32 w.toNat).readByte _
      = (s.setMem (s.mem.storeBytes _ (w.setWidth 64) 4)).readByte _ := State.readByte_congr (s.withFetchWord_mem w) _
    _ = byteLane (w.setWidth 64) k := s.readByte_stored _ _ 4 k hk (by decide)
    _ = byteOfWord w k := by rw [← byteOfWord_setWidth _ hk, low]

end

/-- Settles O45: after the placing the hypotheses of O44 are met, and the four bytes at `pc` are those of the word. -/
theorem stepRunsThePlacedWord : Obligations.StepRunsThePlacedWord := by
  intro s w i decoded
  refine stepExecutesTheDecodedInstruction _ i rfl (s.platform.allowFetch_endPc_ne _) (s.withFetchWord_aligned 32 w.toNat)
    (s.withFetchWord_populated 32 w.toNat) ?_
  rwa [wordOfBytes_readByte fun _ => s.withFetchWord_readByte w]

/-! ### Reset (rule R230, decision D25) -/

/-- Settles O52: `resetWith` takes the fields from its arguments, and `reset` is `resetWith` of the default `pc`. -/
theorem resetTakesItsValuesFromThePlatform : Obligations.ResetTakesItsValuesFromThePlatform := by
  intro p rpc rsp image regs g e l
  obtain ⟨pc, sp, mem, status, -⟩ := State.resetWith_fields p rpc rsp image regs g e l
  exact ⟨pc, sp, mem, status, rfl, rfl⟩

end Sys2Proof.Machine
end
